-- ==== Sys2Proof/Word.lean ====
section
/-! DEFINITION. The words GF256E computes with (00_scope.md R7, R8) and the names of its control registers (10_state.md R28). -/

namespace Sys2Proof

/-- A byte: a general register, a field element, a byte of data memory (00_scope.md R6 `XLEN`, R8). -/
abbrev Byte := BitVec 8

/-- An instruction word, one word of instruction memory (30_encoding.md R90). -/
abbrev Word := BitVec 32

/-- A 16-bit number: a data address, a 16-bit control register, an `imm16` (00_scope.md R6 `ALEN`). -/
abbrev Half := BitVec 16

/-- A 4-bit field that names a general register `x0` to `x15` (30_encoding.md R91). -/
abbrev RegNum := BitVec 4

/-- The 14 control registers, in the order of their numbers 0 to 13 (10_state.md R28). -/
inductive Csr where
  | status
  | cause
  | epc
  | finfo
  | entry
  | mlen
  | nsh
  | sbase
  | obase
  | cbase
  | ncoef
  | abase
  | bbase
  | lc
  deriving DecidableEq, Repr

end Sys2Proof
end

