-- ==== Sys2Proof/Machine/Flags.lean ====
section
/-! DEFINITION. GF256E has no flags, condition codes or predicates (10_state.md R27): an outcome is a byte in a general register.
These are the two encodings that stand in their place (44_const_time.md R180 to R182). -/

namespace Sys2Proof.Machine

/-- The outcome of a comparison: exactly `0x01` for true, `0x00` for false (44_const_time.md R180, R182). -/
def truthByte (b : Bool) : Byte := if b then 0x01 else 0x00

/-- A condition is true when its byte is anything but `0x00` (44_const_time.md R181). -/
def isTrue (v : Byte) : Bool := v != 0x00

end Sys2Proof.Machine
end

