-- ==== Sys2Proof/Config.lean ====
section
/-! DEFINITION. The parameters of GF256E (00_scope.md R6): the constants the hardware fixes, and the two open ones, as free values. -/

namespace Sys2Proof

/-- The low eight bits of `POLY` = `0x11B`, what x^8 is replaced by (00_scope.md R6, 40_gf_arith.md R121). -/
def Config.polyLow : Byte := 0x1B

/-- `MLEN_RESET`: the reset value of `MLEN` (00_scope.md R6, 10_state.md R33). -/
def Config.mlenReset : Byte := 64

/-- `DMEM_BYTES`: the size of data memory, the modulus of every data address (00_scope.md R6, 20_memory.md R61). -/
def Config.dmemBytes : Nat := 65536

/-- `IMEM_POWERON`: the word `i` of instruction memory after power-on and before the host writes it. A FREE VALUE
(70_reset_and_hazards.md R293: "any 32-bit value, the same on every read until written"): nothing constrains it. Log entry 1,
DESIGN CHOICE between the two treatments R293 offers; safe. -/
opaque Config.imemPowerOn : Nat → Word

/-- The public quantities an instruction's time may depend on (70_reset_and_hazards.md R306); a quantity the row of R306 does not name
for the instruction is left at its default, so that the time cannot depend on it. -/
structure PublicQuantities where
  /-- The fetched word is illegal; nothing else is then named. -/
  illegal : Bool := false
  /-- The opcode byte. -/
  opcode : BitVec 8 := 0
  /-- The code of the fault the instruction raises, where R306 names the fault or its cause. -/
  fault : Option (BitVec 8) := none
  /-- Whether `LC` is zero (LOOP). -/
  lcZero : Bool := false
  /-- `NCOEF` (PEVAL). -/
  ncoef : Byte := 0
  /-- `NSH` (LINTERP, COMBINE). -/
  nsh : Byte := 0
  /-- `MLEN` (COMBINE). -/
  mlen : Byte := 0
  /-- The value of the length register (MEQ, MZERO). -/
  len : Byte := 0
  deriving DecidableEq, Repr

/-- `T`, the latency of an instruction: OPEN, "constrained by the timing law only" (00_scope.md R6, 70_reset_and_hazards.md R305, 92 P1). A
FREE VALUE, a function of the public quantities and of nothing else; no state holds a time. Log entry 4. -/
opaque Config.latency : PublicQuantities → Nat

end Sys2Proof
end

