-- ==== Sys2Proof/Machine/Gf.lean ====
section
/-! DEFINITION. The field GF(2^8) modulo `POLY` on bytes (40_gf_arith.md R120 to R124), polynomial evaluation (41_polynomial_eval.md R140),
and Lagrange interpolation at zero with its index checks (42_interpolate.md R150, R151). -/

namespace Sys2Proof.Machine

/-- `gf_add` (40_gf_arith.md R120). -/
def gfAdd (a b : Byte) : Byte := a ^^^ b

/-- `gf_xtime`, multiplication by the element x (40_gf_arith.md R121). -/
def gfXtime (a : Byte) : Byte := (a <<< 1) ^^^ (if a.getLsbD 7 then Config.polyLow else 0)

/-- One iteration of the loop of `gf_mul`, for bit `i` of `b`, on the pair (p, t) (40_gf_arith.md R122). -/
def gfMulStep (b : Byte) (pt : Byte × Byte) (i : Nat) : Byte × Byte :=
  (if b.getLsbD i then pt.1 ^^^ pt.2 else pt.1, gfXtime pt.2)

/-- `gf_mul` (40_gf_arith.md R122): eight iterations from p = 0, t = a. -/
def gfMul (a b : Byte) : Byte := ((List.range 8).foldl (gfMulStep b) (0, a)).1

/-- `gf_pow(a, n)`: start from `0x01` and multiply by `a`, `n` times (40_gf_arith.md R124). -/
def gfPow (a : Byte) : Nat → Byte
  | 0 => 1
  | n + 1 => gfMul (gfPow a n) a

/-- `gf_inv` (40_gf_arith.md R123), as `gf_pow(a, 254)` by squaring: 254 = 2 + 4 + 8 + 16 + 32 + 64 + 128 (log entry 7). The spec
gives `gf_inv(0x00)` no value and no meaning here reads one: GFINV faults first, and the index checks make every divisor of the
interpolator nonzero (log entry 6). -/
def gfInv (a : Byte) : Byte :=
  let a2 := gfMul a a
  let a4 := gfMul a2 a2
  let a8 := gfMul a4 a4
  let a16 := gfMul a8 a8
  let a32 := gfMul a16 a16
  let a64 := gfMul a32 a32
  let a128 := gfMul a64 a64
  gfMul a128 (gfMul a64 (gfMul a32 (gfMul a16 (gfMul a8 (gfMul a4 a2)))))

/-- `poly_eval(c, k, v)` by Horner's rule, the highest coefficient first; `k` is the length of `c` (41_polynomial_eval.md R140). -/
def polyEval (c : List Byte) (v : Byte) : Byte := c.foldr (fun cj acc => gfAdd (gfMul acc v) cj) 0

/-- The product of `xs[j]` over the positions `j` other than `i` (42_interpolate.md R150 `num`). -/
def basisNum (xs : List Byte) (i : Nat) : Byte := (xs.eraseIdx i).foldl gfMul 1

/-- The product of `xs[j] - xs[i]` over the positions `j` other than `i` (42_interpolate.md R150 `den`). -/
def basisDen (xs : List Byte) (i : Nat) : Byte :=
  (xs.eraseIdx i).foldl (fun den xj => gfMul den (gfAdd xj (xs.getD i 0))) 1

/-- The Lagrange basis value at zero of position `i` (42_interpolate.md R150 `basis`). -/
def basisAtZero (xs : List Byte) (i : Nat) : Byte := gfMul (basisNum xs i) (gfInv (basisDen xs i))

/-- `lagrange0(xs, ys, n)`; `n` is the length of `xs` (42_interpolate.md R150). -/
def lagrange0 (xs ys : List Byte) : Byte :=
  (List.range xs.length).foldl (fun acc i => gfAdd acc (gfMul (ys.getD i 0) (basisAtZero xs i))) 0

/-- The lowest position that holds `0x00` (42_interpolate.md R151). -/
def firstZero (xs : List Byte) : Option Nat := xs.findIdx? (· == 0)

/-- The first pair of positions that hold the same byte, in dictionary order, the positions counted from `i` (42_interpolate.md R151). -/
def firstDuplicate (i : Nat) : List Byte → Option (Nat × Nat)
  | [] => none
  | x :: rest =>
    match rest.findIdx? (· == x) with
    | some d => some (i, i + 1 + d)
    | none => firstDuplicate (i + 1) rest

end Sys2Proof.Machine
end

