-- ==== Sys2Proof/Syntax.lean ====
section
/-! DEFINITION. The 26 instructions of spec/opcode_table.json (30_encoding.md R93, R97), in the table's order. -/

namespace Sys2Proof

/-- One constructor per row of spec/opcode_table.json. The arguments are the fields of the row that are not required to be zero
(30_encoding.md R93), in the order of the word, from its high bits to its low: `rd`, `ra`, `rb`, `rc`, then the immediate. A control
register is named by its name; numbers 14 and 15 name none (R96). The high byte of an immediate that R93 requires zero is no argument. -/
inductive Instr where
  /-- 47_system.md R225. -/
  | nop
  /-- 47_system.md R226. -/
  | halt
  /-- 47_system.md R227: `CSRWI csr, imm16`; the number of `csr` stands in the `rd` field. -/
  | csrwi (csr : Csr) (imm16 : Half)
  /-- 47_system.md R228: `CSRW csr, xa`; the number of `csr` stands in the `rd` field. -/
  | csrw (csr : Csr) (ra : RegNum)
  /-- 47_system.md R229: `CSRR xd, csr`; the number of `csr` stands in the `ra` field. -/
  | csrr (rd : RegNum) (csr : Csr)
  /-- 40_gf_arith.md R126. -/
  | gfadd (rd ra rb : RegNum)
  /-- 40_gf_arith.md R127. -/
  | gfmul (rd ra rb : RegNum)
  /-- 40_gf_arith.md R128. -/
  | gfinv (rd ra : RegNum)
  /-- 40_gf_arith.md R129: `ra` the base, `rb` the exponent. -/
  | gfpow (rd ra rb : RegNum)
  /-- 41_polynomial_eval.md R141: `ra` the point. -/
  | peval (rd ra : RegNum)
  /-- 42_interpolate.md R152: `ra` the byte position. -/
  | linterp (rd ra : RegNum)
  /-- 43_combine.md R165. -/
  | combine
  /-- 44_const_time.md R180. -/
  | ceq (rd ra rb : RegNum)
  /-- 44_const_time.md R181: `ra` the value if true, `rb` if false, `rc` the condition (the assembler writes `rc` second). -/
  | csel (rd ra rb rc : RegNum)
  /-- 44_const_time.md R182: `ra` the length. -/
  | meq (rd ra : RegNum)
  /-- 44_const_time.md R183: `ra` the length. -/
  | mzero (ra : RegNum)
  /-- 45_data_movement.md R200. -/
  | ldi (rd : RegNum) (imm8 : Byte)
  /-- 45_data_movement.md R201. -/
  | mov (rd ra : RegNum)
  /-- 45_data_movement.md R202. -/
  | ldb (rd : RegNum) (imm16 : Half)
  /-- 45_data_movement.md R203: `ra` the index. -/
  | ldbx (rd ra : RegNum) (imm16 : Half)
  /-- 45_data_movement.md R204: `rs`, in the `rd` field, is the register stored. -/
  | stb (rs : RegNum) (imm16 : Half)
  /-- 45_data_movement.md R205: `rs`, in the `rd` field, is the register stored, `ra` the index. -/
  | stbx (rs ra : RegNum) (imm16 : Half)
  /-- 45_data_movement.md R207. -/
  | iadd (rd ra rb : RegNum)
  /-- 45_data_movement.md R208. -/
  | iaddi (rd ra : RegNum) (imm8 : Byte)
  /-- 46_control.md R215. -/
  | jmp (target : Byte)
  /-- 46_control.md R216. -/
  | loop (target : Byte)
  deriving DecidableEq, Repr

/-! ## Pseudo-instructions (30_encoding.md R101): other names for instructions of the table -/

/-- `CLR xd`. -/
def pseudoClr (rd : RegNum) : Instr := .ldi rd 0

/-- `GFSUB xd, xa, xb`. -/
def pseudoGfsub (rd ra rb : RegNum) : Instr := .gfadd rd ra rb

/-- `GFSQR xd, xa`. -/
def pseudoGfsqr (rd ra : RegNum) : Instr := .gfmul rd ra ra

end Sys2Proof
end

