-- ==== Sys2Proof/WellFormed.lean ====
section
/-! DEFINITION. Which instruction terms stand for a legal word (30_encoding.md R96): every term but a write to a read-only control register. -/

namespace Sys2Proof

/-- The control registers an instruction may write, numbers 4 to 13 (10_state.md R28, 30_encoding.md R96). -/
def Csr.writable : Csr → Bool
  | .status | .cause | .epc | .finfo => false
  | .entry | .mlen | .nsh | .sbase | .obase | .cbase | .ncoef | .abase | .bbase | .lc => true

/-- "CSRWI and CSRW accept only the writable registers 4 to 13" (30_encoding.md R96); the types of the other fields hold all the
encoding asks of them. -/
def Instr.wellFormed : Instr → Bool
  | .nop => true
  | .halt => true
  | .csrwi csr _ => csr.writable
  | .csrw csr _ => csr.writable
  | .csrr _ _ => true
  | .gfadd _ _ _ => true
  | .gfmul _ _ _ => true
  | .gfinv _ _ => true
  | .gfpow _ _ _ => true
  | .peval _ _ => true
  | .linterp _ _ => true
  | .combine => true
  | .ceq _ _ _ => true
  | .csel _ _ _ _ => true
  | .meq _ _ => true
  | .mzero _ => true
  | .ldi _ _ => true
  | .mov _ _ => true
  | .ldb _ _ => true
  | .ldbx _ _ _ => true
  | .stb _ _ => true
  | .stbx _ _ _ => true
  | .iadd _ _ _ => true
  | .iaddi _ _ _ => true
  | .jmp _ => true
  | .loop _ => true

end Sys2Proof
end

