-- ==== Sys2Proof/Decode.lean ====
section
/-! DEFINITION. The decoder, total on 32-bit words (30_encoding.md R91 to R99), and after it the encoder (R93). -/

namespace Sys2Proof

/-! ## Control-register numbers (10_state.md R28) -/

/-- The 4-bit number of a control register. -/
def Csr.number : Csr → BitVec 4
  | .status => 0
  | .cause => 1
  | .epc => 2
  | .finfo => 3
  | .entry => 4
  | .mlen => 5
  | .nsh => 6
  | .sbase => 7
  | .obase => 8
  | .cbase => 9
  | .ncoef => 10
  | .abase => 11
  | .bbase => 12
  | .lc => 13

/-- The control register a 4-bit number names; 14 and 15 are reserved (10_state.md R42). -/
def csrOfNumber (n : BitVec 4) : Option Csr :=
  match n with
  | 0#4 => some .status
  | 1#4 => some .cause
  | 2#4 => some .epc
  | 3#4 => some .finfo
  | 4#4 => some .entry
  | 5#4 => some .mlen
  | 6#4 => some .nsh
  | 7#4 => some .sbase
  | 8#4 => some .obase
  | 9#4 => some .cbase
  | 10#4 => some .ncoef
  | 11#4 => some .abase
  | 12#4 => some .bbase
  | 13#4 => some .lc
  | _ => none

/-! ## Fields of a word (30_encoding.md R91, R92) -/

def fieldOp (w : Word) : BitVec 8 := w.extractLsb' 24 8
def fieldRd (w : Word) : BitVec 4 := w.extractLsb' 20 4
def fieldRa (w : Word) : BitVec 4 := w.extractLsb' 16 4
def fieldRb (w : Word) : BitVec 4 := w.extractLsb' 12 4
def fieldRc (w : Word) : BitVec 4 := w.extractLsb' 8 4
def fieldImm16 (w : Word) : BitVec 16 := w.extractLsb' 0 16
def fieldImm8 (w : Word) : BitVec 8 := w.extractLsb' 0 8

/-! ## The decoder -/

/-- Why a word is illegal (30_encoding.md R98); each reason raises the same `IllegalInstruction`. -/
inductive IllegalWord where
  /-- One of the 230 unassigned values of `op` (R97). -/
  | unassignedOpcode
  /-- An assigned `op` with a one in a must-be-zero bit (R94). -/
  | mustBeZero
  /-- A control-register number the instruction does not accept (R96). -/
  | csrNumber
  deriving DecidableEq, Repr

/-- The mask test of 30_encoding.md R99: the row's instruction if `w & mask = match`, else a must-be-zero bit is set. -/
def decodeRow (w mask pattern : Word) (row : Except IllegalWord Instr) : Except IllegalWord Instr :=
  if w &&& mask = pattern then row else .error .mustBeZero

/-- The number test of 30_encoding.md R99 for a control register that is read: 0 to 13. -/
def decodeCsrRead (n : BitVec 4) (k : Csr → Instr) : Except IllegalWord Instr :=
  match csrOfNumber n with
  | some c => .ok (k c)
  | none => .error .csrNumber

/-- The number test of 30_encoding.md R99 for a control register that is written: 4 to 13. -/
def decodeCsrWrite (n : BitVec 4) (k : Csr → Instr) : Except IllegalWord Instr :=
  if n < 4#4 then .error .csrNumber else decodeCsrRead n k

/-- `decode(w)` of 30_encoding.md R99. The `op` byte selects the row of spec/opcode_table.json; then its mask test; then, for
the control-register instructions, the number test. -/
def decode (w : Word) : Except IllegalWord Instr :=
  let rd := fieldRd w
  let ra := fieldRa w
  let rb := fieldRb w
  let rc := fieldRc w
  let imm16 := fieldImm16 w
  let imm8 := fieldImm8 w
  match fieldOp w with
  | 0x01#8 => decodeRow w 0xFFFFFFFF#32 0x01000000#32 (.ok .nop)
  | 0x02#8 => decodeRow w 0xFFFFFFFF#32 0x02000000#32 (.ok .halt)
  | 0x03#8 => decodeRow w 0xFF0F0000#32 0x03000000#32 (decodeCsrWrite rd fun c => .csrwi c imm16)
  | 0x04#8 => decodeRow w 0xFF00FFFF#32 0x04000000#32 (decodeCsrWrite rd fun c => .csrw c ra)
  | 0x05#8 => decodeRow w 0xFF00FFFF#32 0x05000000#32 (decodeCsrRead ra fun c => .csrr rd c)
  | 0x10#8 => decodeRow w 0xFF000FFF#32 0x10000000#32 (.ok (.gfadd rd ra rb))
  | 0x11#8 => decodeRow w 0xFF000FFF#32 0x11000000#32 (.ok (.gfmul rd ra rb))
  | 0x12#8 => decodeRow w 0xFF00FFFF#32 0x12000000#32 (.ok (.gfinv rd ra))
  | 0x13#8 => decodeRow w 0xFF000FFF#32 0x13000000#32 (.ok (.gfpow rd ra rb))
  | 0x20#8 => decodeRow w 0xFF00FFFF#32 0x20000000#32 (.ok (.peval rd ra))
  | 0x21#8 => decodeRow w 0xFF00FFFF#32 0x21000000#32 (.ok (.linterp rd ra))
  | 0x22#8 => decodeRow w 0xFFFFFFFF#32 0x22000000#32 (.ok .combine)
  | 0x30#8 => decodeRow w 0xFF000FFF#32 0x30000000#32 (.ok (.ceq rd ra rb))
  | 0x31#8 => decodeRow w 0xFF0000FF#32 0x31000000#32 (.ok (.csel rd ra rb rc))
  | 0x32#8 => decodeRow w 0xFF00FFFF#32 0x32000000#32 (.ok (.meq rd ra))
  | 0x33#8 => decodeRow w 0xFFF0FFFF#32 0x33000000#32 (.ok (.mzero ra))
  | 0x40#8 => decodeRow w 0xFF0FFF00#32 0x40000000#32 (.ok (.ldi rd imm8))
  | 0x41#8 => decodeRow w 0xFF00FFFF#32 0x41000000#32 (.ok (.mov rd ra))
  | 0x42#8 => decodeRow w 0xFF0F0000#32 0x42000000#32 (.ok (.ldb rd imm16))
  | 0x43#8 => decodeRow w 0xFF000000#32 0x43000000#32 (.ok (.ldbx rd ra imm16))
  | 0x44#8 => decodeRow w 0xFF0F0000#32 0x44000000#32 (.ok (.stb rd imm16))
  | 0x45#8 => decodeRow w 0xFF000000#32 0x45000000#32 (.ok (.stbx rd ra imm16))
  | 0x46#8 => decodeRow w 0xFF000FFF#32 0x46000000#32 (.ok (.iadd rd ra rb))
  | 0x47#8 => decodeRow w 0xFF00FF00#32 0x47000000#32 (.ok (.iaddi rd ra imm8))
  | 0x50#8 => decodeRow w 0xFFFFFF00#32 0x50000000#32 (.ok (.jmp imm8))
  | 0x51#8 => decodeRow w 0xFFFFFF00#32 0x51000000#32 (.ok (.loop imm8))
  | _ => .error .unassignedOpcode

/-- The word that holds the low `nbits` bits of `w` and zeros above. -/
def tableWord (nbits w : Nat) : Word := BitVec.ofNat 32 (w % 2 ^ nbits)

/-- The decoder, asked in the numbering of spec/opcode_table.json. An instruction is one 32-bit word (30_encoding.md R90), so the
table's numbering is the word's own and no byte order arises (20_memory.md R65). -/
def decodeTableWord (nbits w : Nat) : Option Instr := (decode (tableWord nbits w)).toOption

/-! ## The encoder (30_encoding.md R91 to R93) -/

/-- Format R (30_encoding.md R91), `z8` zero. -/
def formatR (op : BitVec 8) (rd ra rb rc : BitVec 4) : Word := op ++ rd ++ ra ++ rb ++ rc ++ 0#8

/-- Format I (30_encoding.md R92). -/
def formatI (op : BitVec 8) (rd ra : BitVec 4) (imm16 : BitVec 16) : Word := op ++ rd ++ ra ++ imm16

/-- An immediate that is one byte, `imm16[15:8]` zero (30_encoding.md R95). -/
def byteImm (imm8 : BitVec 8) : BitVec 16 := 0#8 ++ imm8

/-- The word of an instruction, from the field table of 30_encoding.md R93. -/
def encode : Instr → Word
  | .nop => formatR 0x01#8 0#4 0#4 0#4 0#4
  | .halt => formatR 0x02#8 0#4 0#4 0#4 0#4
  | .csrwi csr imm16 => formatI 0x03#8 csr.number 0#4 imm16
  | .csrw csr ra => formatI 0x04#8 csr.number ra 0#16
  | .csrr rd csr => formatI 0x05#8 rd csr.number 0#16
  | .gfadd rd ra rb => formatR 0x10#8 rd ra rb 0#4
  | .gfmul rd ra rb => formatR 0x11#8 rd ra rb 0#4
  | .gfinv rd ra => formatR 0x12#8 rd ra 0#4 0#4
  | .gfpow rd ra rb => formatR 0x13#8 rd ra rb 0#4
  | .peval rd ra => formatR 0x20#8 rd ra 0#4 0#4
  | .linterp rd ra => formatR 0x21#8 rd ra 0#4 0#4
  | .combine => formatR 0x22#8 0#4 0#4 0#4 0#4
  | .ceq rd ra rb => formatR 0x30#8 rd ra rb 0#4
  | .csel rd ra rb rc => formatR 0x31#8 rd ra rb rc
  | .meq rd ra => formatR 0x32#8 rd ra 0#4 0#4
  | .mzero ra => formatR 0x33#8 0#4 ra 0#4 0#4
  | .ldi rd imm8 => formatI 0x40#8 rd 0#4 (byteImm imm8)
  | .mov rd ra => formatR 0x41#8 rd ra 0#4 0#4
  | .ldb rd imm16 => formatI 0x42#8 rd 0#4 imm16
  | .ldbx rd ra imm16 => formatI 0x43#8 rd ra imm16
  | .stb rs imm16 => formatI 0x44#8 rs 0#4 imm16
  | .stbx rs ra imm16 => formatI 0x45#8 rs ra imm16
  | .iadd rd ra rb => formatR 0x46#8 rd ra rb 0#4
  | .iaddi rd ra imm8 => formatI 0x47#8 rd ra (byteImm imm8)
  | .jmp target => formatI 0x50#8 0#4 0#4 (byteImm target)
  | .loop target => formatI 0x51#8 0#4 0#4 (byteImm target)

end Sys2Proof
end

