-- ==== Sys2Proof/Machine/State.lean ====
section
/-! DEFINITION. The state of GF256E (10_state.md R21), its value after power-on reset (R49), and the reasons a step could stop. -/

namespace Sys2Proof.Machine

/-- The run state, the field `STATUS.state` (10_state.md R30). It is all there is to `STATUS`, whose bits 7:2 are hardwired zero
(93_implementation_defined.md U18; log entry 5). -/
inductive RunState where
  /-- 0: after reset, before the first `HostStart`. -/
  | idle
  /-- 1: the engine executes instructions. -/
  | run
  /-- 2: a HALT instruction ended the run. -/
  | halted
  /-- 3: a fault ended the run; left only by reset. -/
  | faulted
  deriving DecidableEq, Repr

/-- The seven named causes of a fault (60_exceptions.md R243). A fault is a next state of the machine (`State.raise`), not a stop of the model. -/
inductive Cause where
  | invalidParameters
  | duplicateShareIndex
  /-- Reserved, never raised (60_exceptions.md R243). -/
  | insufficientShares
  /-- Reserved, never raised (60_exceptions.md R243). -/
  | randomSourceFailure
  | zeroShareIndex
  | inverseOfZero
  | illegalInstruction
  deriving DecidableEq, Repr

/-- Reasons for the model to stop with a fault. There are none: every word decodes or takes IllegalInstruction (30_encoding.md R98),
every address is backed (20_memory.md R61), and every fault of the spec is a next state (60_exceptions.md R246). Nobody raises one; safe. -/
inductive Fault where
  deriving DecidableEq, Repr

/-- Reasons for the model to refuse an instruction. -/
inductive Refusal where
  /-- Raised by `exec` alone, for an instruction that has no meaning yet (none is left); safe. -/
  | notModelled (mnemonic : String)
  deriving DecidableEq, Repr

/-- Data memory `DMEM` as (address, byte) pairs. Canonical form: addresses strictly rising and below 65536, no byte `0x00`
(`Memory.wf`); an address not listed reads as `0x00`, the value reset gives it (70_reset_and_hazards.md R292; log entry 10). -/
abbrev Memory := List Host.Cell

/-- The whole architectural state (10_state.md R21). -/
structure State where
  /-- General registers `x[0]` to `x[15]` (10_state.md R22). -/
  regs : Vector Byte 16
  /-- Program counter, an index into `imem` (10_state.md R25). -/
  pc : BitVec 8
  /-- Control register 0, `STATUS` (10_state.md R30). -/
  runState : RunState
  /-- Control register 1, `CAUSE` (10_state.md R31). -/
  cause : BitVec 8
  /-- Control register 2, `EPC` (10_state.md R32). -/
  epc : BitVec 8
  /-- Control register 3, `FINFO` (10_state.md R32). -/
  finfo : BitVec 16
  /-- Control register 4, `ENTRY` (10_state.md R41). -/
  entry : BitVec 8
  /-- Control register 5, `MLEN` (10_state.md R33). -/
  mlen : BitVec 8
  /-- Control register 6, `NSH` (10_state.md R34). -/
  nsh : BitVec 8
  /-- Control register 7, `SBASE` (10_state.md R35). -/
  sbase : BitVec 16
  /-- Control register 8, `OBASE` (10_state.md R36). -/
  obase : BitVec 16
  /-- Control register 9, `CBASE` (10_state.md R37). -/
  cbase : BitVec 16
  /-- Control register 10, `NCOEF` (10_state.md R38). -/
  ncoef : BitVec 8
  /-- Control register 11, `ABASE` (10_state.md R39). -/
  abase : BitVec 16
  /-- Control register 12, `BBASE` (10_state.md R39). -/
  bbase : BitVec 16
  /-- Control register 13, `LC` (10_state.md R40). -/
  lc : BitVec 8
  /-- Instruction memory `IMEM` (10_state.md R45). -/
  imem : Vector Word 256
  /-- Data memory `DMEM` (10_state.md R46). -/
  dmem : Memory
  deriving DecidableEq, Repr

/-- The state after power-on, which counts as a reset (10_state.md R49; 70_reset_and_hazards.md R290 to R293): every register zero but
`MLEN`, data memory all zero, and instruction memory the free value `Config.imemPowerOn` (log entry 1). -/
def State.reset : State where
  regs := Vector.replicate 16 0
  pc := 0
  runState := .idle
  cause := 0
  epc := 0
  finfo := 0
  entry := 0
  mlen := Config.mlenReset
  nsh := 0
  sbase := 0
  obase := 0
  cbase := 0
  ncoef := 0
  abase := 0
  bbase := 0
  lc := 0
  imem := Vector.ofFn fun i => Config.imemPowerOn i
  dmem := []

/-- What executing one instruction gives. -/
abbrev Result := Host.Outcome State Fault Refusal

end Sys2Proof.Machine
end

