-- ==== Sys2Proof/Machine/Ops.lean ====
section
/-! DEFINITION. The named operations over registers, control registers and memories, the taking of a fault, and the fetch. -/

namespace Sys2Proof.Machine

/-! ## General registers (10_state.md R22) -/

/-- `x[r]`. -/
def State.readReg (s : State) (r : RegNum) : Byte := s.regs[r.toNat]'r.isLt

/-- `x[r] <- v`. -/
def State.writeReg (s : State) (r : RegNum) (v : Byte) : State := { s with regs := s.regs.set r.toNat v r.isLt }

/-! ## Program counter (10_state.md R25, R26) -/

/-- `pc <- (pc + 1) mod 256`. -/
def State.nextPc (s : State) : State := { s with pc := s.pc + 1 }

/-- `pc <- target`. -/
def State.jumpTo (s : State) (target : Byte) : State := { s with pc := target }

/-! ## Control registers (10_state.md R28 to R41) -/

/-- The byte `STATUS` reads as: the run state in bits 1:0, bits 7:2 zero (10_state.md R30). -/
def RunState.status : RunState → BitVec 8
  | .idle => 0
  | .run => 1
  | .halted => 2
  | .faulted => 3

/-- The control registers of 16 bits; the others have 8 (10_state.md R28). -/
def csrWide : Csr → Bool
  | .finfo | .sbase | .obase | .cbase | .abase | .bbase => true
  | .status | .cause | .epc | .entry | .mlen | .nsh | .ncoef | .lc => false

/-- `csr[c]`, the whole register zero-extended to 16 bits (10_state.md R29). -/
def State.readCsr (s : State) : Csr → Half
  | .status => s.runState.status.setWidth 16
  | .cause => s.cause.setWidth 16
  | .epc => s.epc.setWidth 16
  | .finfo => s.finfo
  | .entry => s.entry.setWidth 16
  | .mlen => s.mlen.setWidth 16
  | .nsh => s.nsh.setWidth 16
  | .sbase => s.sbase
  | .obase => s.obase
  | .cbase => s.cbase
  | .ncoef => s.ncoef.setWidth 16
  | .abase => s.abase
  | .bbase => s.bbase
  | .lc => s.lc.setWidth 16

/-- `v` has no bit that register `c` lacks: bits 15:8 are zero if it is 8 bits wide (10_state.md R43). -/
def csrFits (c : Csr) (v : Half) : Bool := csrWide c || v.extractLsb' 8 8 == 0#8

/-- `csr[c] <- v` for a writable register `c`, all 16 bits or bits 7:0 (10_state.md R29). The read-only registers 0 to 3 are written by
HALT, by a fault and by the host's start and reset only, each by an operation of its own, and are left alone here (R30 to R32). -/
def State.writeCsr (s : State) (c : Csr) (v : Half) : State :=
  match c with
  | .status | .cause | .epc | .finfo => s
  | .entry => { s with entry := v.setWidth 8 }
  | .mlen => { s with mlen := v.setWidth 8 }
  | .nsh => { s with nsh := v.setWidth 8 }
  | .sbase => { s with sbase := v }
  | .obase => { s with obase := v }
  | .cbase => { s with cbase := v }
  | .ncoef => { s with ncoef := v.setWidth 8 }
  | .abase => { s with abase := v }
  | .bbase => { s with bbase := v }
  | .lc => { s with lc := v.setWidth 8 }

/-! ## Data memory (20_memory.md R61 to R63) -/

/-- The byte at address `a`: the first entry for `a`, or `0x00` for an address not listed. -/
def Memory.read : Memory → Nat → Byte
  | [], _ => 0
  | (k, b) :: rest, a => if k = a then b else Memory.read rest a

/-- The memory without its entries for address `a`. -/
def Memory.erase (m : Memory) (a : Nat) : Memory := m.filter fun c => c.1 != a

/-- The memory with an entry put before the first entry of a higher address. -/
def Memory.insert : Memory → Nat → Byte → Memory
  | [], a, v => [(a, v)]
  | (k, b) :: rest, a, v => if a < k then (a, v) :: (k, b) :: rest else (k, b) :: Memory.insert rest a v

/-- The memory with byte `v` at address `a`. Writing what an unlisted address reads as lists nothing. -/
def Memory.write (m : Memory) (a : Nat) (v : Byte) : Memory :=
  if v = 0 then m.erase a else (m.erase a).insert a v

/-- The canonical form from address `low` on. -/
def Memory.wfFrom : Nat → Memory → Bool
  | _, [] => true
  | low, (k, b) :: rest => low ≤ k && k < Config.dmemBytes && b != 0 && Memory.wfFrom (k + 1) rest

/-- The canonical form: addresses strictly rising and below 65536, no entry equal to what an unlisted address reads as. -/
def Memory.wf (m : Memory) : Bool := m.wfFrom 0

/-- An exact address sum reduced `mod 65536` (20_memory.md R61). -/
def wrapAddr (a : Nat) : Nat := a % Config.dmemBytes

/-- `MemRead(a, 1)` (20_memory.md R62). -/
def State.memRead (s : State) (a : Nat) : Byte := s.dmem.read (wrapAddr a)

/-- `MemWrite(a, 1, v)` (20_memory.md R63). -/
def State.memWrite (s : State) (a : Nat) (v : Byte) : State := { s with dmem := s.dmem.write (wrapAddr a) v }

/-- `MemWrite(a + j, 1, vs[j])` for every `j`, in ascending order. -/
def State.memWriteBytes (s : State) (a : Nat) : List Byte → State
  | [] => s
  | v :: vs => (s.memWrite a v).memWriteBytes (a + 1) vs

/-! ## Instruction memory (10_state.md R45) -/

/-- `IMEM[i]`. -/
def State.readImem (s : State) (i : BitVec 8) : Word := s.imem[i.toNat]'i.isLt

/-- `IMEM[i] <- w`; only the host does this (60_exceptions.md R264). -/
def State.writeImem (s : State) (i : BitVec 8) (w : Word) : State := { s with imem := s.imem.set i.toNat w i.isLt }

/-- The word the engine fetches, `IMEM[pc]` (20_memory.md R66). -/
def State.fetch (s : State) : Word := s.readImem s.pc

/-! ## Faults (60_exceptions.md R243 to R246) -/

/-- The code a cause writes to `CAUSE` (60_exceptions.md R243). -/
def Cause.code : Cause → BitVec 8
  | .invalidParameters => 1
  | .duplicateShareIndex => 2
  | .insufficientShares => 3
  | .randomSourceFailure => 4
  | .zeroShareIndex => 5
  | .inverseOfZero => 6
  | .illegalInstruction => 7

/-- `raise <Cause>(info)`: the taking of a fault, the one way to `FAULTED` (60_exceptions.md R246). `pc` is not changed, nor
is any other state. There is no return from a fault but the host's reset, `State.hostReset` (R249). -/
def State.raise (s : State) (c : Cause) (info : Half) : State :=
  { s with cause := c.code, epc := s.pc, finfo := info, runState := .faulted }

/-- The sub-codes of `InvalidParameters` (60_exceptions.md R245). -/
def subNshZero : Half := 0x0001
def subNcoefZero : Half := 0x0002
def subMlenZero : Half := 0x0003
def subPosition : Half := 0x0004
def subCsrValue : Half := 0x0005

/-- `STATUS.state <- HALTED` (47_system.md R226). -/
def State.halt (s : State) : State := { s with runState := .halted }

/-! ## How an instruction ends -/

/-- The instruction faults: nothing it would have written is written (00_scope.md R10). -/
def State.fail (s : State) (c : Cause) (info : Half) : Result := .next (s.raise c info)

/-- The instruction completes with `x[rd] <- v` and `pc <- (pc + 1) mod 256`. -/
def State.finishReg (s : State) (rd : RegNum) (v : Byte) : Result := .next (s.writeReg rd v).nextPc

/-- A word that is no instruction raises `IllegalInstruction(0x0000)` (30_encoding.md R98, 60_exceptions.md R245). -/
def State.takeIllegal (s : State) : Result := s.fail .illegalInstruction 0

end Sys2Proof.Machine
end

