-- ==== Sys2Proof/Machine/Operands.lean ====
section
/-! DEFINITION. Where an instruction's operands lie: the forms of an address (30_encoding.md R95, 20_memory.md R61), the data layouts
(20_memory.md R70 to R73), and the index checks on a share array (42_interpolate.md R151). -/

namespace Sys2Proof.Machine

/-! ## Addresses -/

/-- The absolute form: `imm16` whole (45_data_movement.md R202, R204). -/
def absAddr (imm16 : Half) : Nat := imm16.toNat

/-- The indexed form: `(imm16 + zext_16(x[ra])) mod 65536` (45_data_movement.md R203, R205). -/
def State.indexedAddr (s : State) (imm16 : Half) (ra : RegNum) : Nat := wrapAddr (imm16.toNat + (s.readReg ra).toNat)

/-- The `len` bytes of data memory from address `a` on. -/
def State.memReadBytes (s : State) (a len : Nat) : List Byte := (List.range len).map fun j => s.memRead (a + j)

/-! ## Layouts -/

/-- `SHARE_LEN` = `csr[MLEN] + 1` (10_state.md R33). -/
def State.shareLen (s : State) : Nat := s.mlen.toNat + 1

/-- `share_x(i)`, the index byte of share `i` (20_memory.md R70). -/
def State.shareX (s : State) (i : Nat) : Byte := s.memRead (s.sbase.toNat + i * s.shareLen)

/-- `share_y(i, p)`, the byte of share `i` for position `p` (20_memory.md R70). -/
def State.shareY (s : State) (i p : Nat) : Byte := s.memRead (s.sbase.toNat + i * s.shareLen + 1 + p)

/-- The index bytes of the `csr[NSH]` shares, in array order. -/
def State.shareXs (s : State) : List Byte := (List.range s.nsh.toNat).map s.shareX

/-- The bytes of the `csr[NSH]` shares for position `p`, in array order. -/
def State.shareYs (s : State) (p : Nat) : List Byte := (List.range s.nsh.toNat).map fun i => s.shareY i p

/-- The `csr[NCOEF]` coefficients at `csr[CBASE]`, coefficient 0 first (20_memory.md R71). -/
def State.coefficients (s : State) : List Byte := s.memReadBytes s.cbase.toNat s.ncoef.toNat

/-- The first `len` bytes of sequence A (20_memory.md R73). -/
def State.sequenceA (s : State) (len : Nat) : List Byte := s.memReadBytes s.abase.toNat len

/-- The first `len` bytes of sequence B (20_memory.md R73). -/
def State.sequenceB (s : State) (len : Nat) : List Byte := s.memReadBytes s.bbase.toNat len

/-! ## Checks -/

/-- `(i << 8) | j`, what a duplicate at the array positions `i` and `j` puts into `FINFO` (60_exceptions.md R245). -/
def pairInfo (i j : Nat) : Half := (BitVec.ofNat 16 i <<< 8) ||| BitVec.ofNat 16 j

/-- `check_indices(xs, n)`: the fault the index bytes raise, with its `FINFO`, if they raise one. The zero check comes first (42_interpolate.md R151). -/
def checkIndices (xs : List Byte) : Option (Cause × Half) :=
  match firstZero xs with
  | some i => some (.zeroShareIndex, BitVec.ofNat 16 i)
  | none =>
    match firstDuplicate 0 xs with
    | some (i, j) => some (.duplicateShareIndex, pairInfo i j)
    | none => none

/-- The checks LINTERP and COMBINE share before a position is looked at: `csr[MLEN]` = 0, then `csr[NSH]` = 0 (42_interpolate.md R153, 43_combine.md R166). -/
def State.checkCounts (s : State) : Option (Cause × Half) :=
  if s.mlen = 0 then some (.invalidParameters, subMlenZero)
  else if s.nsh = 0 then some (.invalidParameters, subNshZero)
  else none

end Sys2Proof.Machine
end

