-- ==== Sys2Proof/Machine/ConstTime.lean ====
section
/-! DEFINITION. The comparators, the selector and the erase: CEQ, CSEL, MEQ, MZERO (44_const_time.md). -/

namespace Sys2Proof.Machine

/-- 44_const_time.md R180. -/
def execCeq (rd ra rb : RegNum) (s : State) : Result := s.finishReg rd (truthByte (s.readReg ra == s.readReg rb))

/-- 44_const_time.md R181. -/
def execCsel (rd ra rb rc : RegNum) (s : State) : Result :=
  s.finishReg rd (if isTrue (s.readReg rc) then s.readReg ra else s.readReg rb)

/-- `d` of 44_const_time.md R182: the OR over the pairs of bytes of their exclusive or. -/
def difference (as bs : List Byte) : Byte := (as.zip bs).foldl (fun d ab => d ||| (ab.1 ^^^ ab.2)) 0

/-- 44_const_time.md R182. -/
def execMeq (rd ra : RegNum) (s : State) : Result :=
  let len := (s.readReg ra).toNat
  s.finishReg rd (truthByte (difference (s.sequenceA len) (s.sequenceB len) == 0))

/-- 44_const_time.md R183. -/
def execMzero (ra : RegNum) (s : State) : Result :=
  .next (s.memWriteBytes s.abase.toNat (List.replicate (s.readReg ra).toNat 0)).nextPc

end Sys2Proof.Machine
end

