-- ==== Sys2Proof/Machine/Control.lean ====
section
/-! DEFINITION. Control transfer: JMP, LOOP (46_control.md). -/

namespace Sys2Proof.Machine

/-- 46_control.md R215. -/
def execJmp (target : Byte) (s : State) : Result := .next (s.jumpTo target)

/-- 46_control.md R216: `LC` never wraps below zero. -/
def execLoop (target : Byte) (s : State) : Result :=
  if s.lc = 0 then .next s.nextPc else .next ((s.writeCsr .lc ((s.lc - 1).setWidth 16)).jumpTo target)

end Sys2Proof.Machine
end

