-- ==== Sys2Proof/Machine/DataMove.lean ====
section
/-! DEFINITION. Data movement and index arithmetic: LDI, MOV, LDB, LDBX, STB, STBX, IADD, IADDI (45_data_movement.md). -/

namespace Sys2Proof.Machine

/-- 45_data_movement.md R200. -/
def execLdi (rd : RegNum) (imm8 : Byte) (s : State) : Result := s.finishReg rd imm8

/-- 45_data_movement.md R201. -/
def execMov (rd ra : RegNum) (s : State) : Result := s.finishReg rd (s.readReg ra)

/-- 45_data_movement.md R202. -/
def execLdb (rd : RegNum) (imm16 : Half) (s : State) : Result := s.finishReg rd (s.memRead (absAddr imm16))

/-- 45_data_movement.md R203: the index is read before `x[rd]` is written. -/
def execLdbx (rd ra : RegNum) (imm16 : Half) (s : State) : Result := s.finishReg rd (s.memRead (s.indexedAddr imm16 ra))

/-- 45_data_movement.md R204. -/
def execStb (rs : RegNum) (imm16 : Half) (s : State) : Result := .next (s.memWrite (absAddr imm16) (s.readReg rs)).nextPc

/-- 45_data_movement.md R205. -/
def execStbx (rs ra : RegNum) (imm16 : Half) (s : State) : Result :=
  .next (s.memWrite (s.indexedAddr imm16 ra) (s.readReg rs)).nextPc

/-- 45_data_movement.md R207: the carry out of bit 7 is dropped. -/
def execIadd (rd ra rb : RegNum) (s : State) : Result := s.finishReg rd (s.readReg ra + s.readReg rb)

/-- 45_data_movement.md R208. -/
def execIaddi (rd ra : RegNum) (imm8 : Byte) (s : State) : Result := s.finishReg rd (s.readReg ra + imm8)

end Sys2Proof.Machine
end

