-- ==== Sys2Proof/Machine/GfArith.lean ====
section
/-! DEFINITION. The field arithmetic instructions GFADD, GFMUL, GFINV, GFPOW (40_gf_arith.md). -/

namespace Sys2Proof.Machine

/-- 40_gf_arith.md R126. -/
def execGfadd (rd ra rb : RegNum) (s : State) : Result := s.finishReg rd (gfAdd (s.readReg ra) (s.readReg rb))

/-- 40_gf_arith.md R127. -/
def execGfmul (rd ra rb : RegNum) (s : State) : Result := s.finishReg rd (gfMul (s.readReg ra) (s.readReg rb))

/-- 40_gf_arith.md R128: `InverseOfZero` when the operand is `0x00`. -/
def execGfinv (rd ra : RegNum) (s : State) : Result :=
  if s.readReg ra = 0 then s.fail .inverseOfZero 0 else s.finishReg rd (gfInv (s.readReg ra))

/-- 40_gf_arith.md R129: `x[rb]` is an unsigned exponent 0 to 255. -/
def execGfpow (rd ra rb : RegNum) (s : State) : Result := s.finishReg rd (gfPow (s.readReg ra) (s.readReg rb).toNat)

end Sys2Proof.Machine
end

