-- ==== Sys2Proof/Machine/Polynomial.lean ====
section
/-! DEFINITION. The polynomial instructions PEVAL (41_polynomial_eval.md), LINTERP (42_interpolate.md) and COMBINE (43_combine.md). -/

namespace Sys2Proof.Machine

/-- 41_polynomial_eval.md R141. -/
def execPeval (rd ra : RegNum) (s : State) : Result :=
  if s.ncoef = 0 then s.fail .invalidParameters subNcoefZero
  else s.finishReg rd (polyEval s.coefficients (s.readReg ra))

/-- The fault LINTERP raises at position `p`, the first that applies in the order of 42_interpolate.md R153. -/
def State.linterpFault (s : State) (p : Nat) : Option (Cause × Half) :=
  match s.checkCounts with
  | some f => some f
  | none => if s.mlen.toNat ≤ p then some (.invalidParameters, subPosition) else checkIndices s.shareXs

/-- 42_interpolate.md R152. -/
def execLinterp (rd ra : RegNum) (s : State) : Result :=
  match s.linterpFault (s.readReg ra).toNat with
  | some (c, info) => s.fail c info
  | none => s.finishReg rd (lagrange0 s.shareXs (s.shareYs (s.readReg ra).toNat))

/-- The fault COMBINE raises, the first that applies in the order of 43_combine.md R166. -/
def State.combineFault (s : State) : Option (Cause × Half) :=
  match s.checkCounts with
  | some f => some f
  | none => checkIndices s.shareXs

/-- `out[0]` to `out[csr[MLEN]-1]`, computed from memory as it stood before the instruction (43_combine.md R165). -/
def State.combineOut (s : State) : List Byte := (List.range s.mlen.toNat).map fun p => lagrange0 s.shareXs (s.shareYs p)

/-- 43_combine.md R165: all checks, then all computation, then all writes. -/
def execCombine (s : State) : Result :=
  match s.combineFault with
  | some (c, info) => s.fail c info
  | none => .next (s.memWriteBytes s.obase.toNat s.combineOut).nextPc

end Sys2Proof.Machine
end

