-- ==== Sys2Proof/Machine/System.lean ====
section
/-! DEFINITION. The system instructions NOP, HALT, CSRWI, CSRW, CSRR (47_system.md). -/

namespace Sys2Proof.Machine

/-- 47_system.md R225. -/
def execNop (s : State) : Result := .next s.nextPc

/-- 47_system.md R226: `pc` stays at the index of the HALT. -/
def execHalt (s : State) : Result := .next s.halt

/-- 47_system.md R227. A term that names a read-only register stands for a word the decoder rejects and raises what that word
raises (30_encoding.md R96; log entry 9). -/
def execCsrwi (csr : Csr) (imm16 : Half) (s : State) : Result :=
  if csr.writable then
    if csrFits csr imm16 then .next (s.writeCsr csr imm16).nextPc else s.fail .invalidParameters subCsrValue
  else s.takeIllegal

/-- 47_system.md R228: the byte zero-extended, so that it always fits. A term that names a read-only register: as for CSRWI. -/
def execCsrw (csr : Csr) (ra : RegNum) (s : State) : Result :=
  if csr.writable then .next (s.writeCsr csr ((s.readReg ra).setWidth 16)).nextPc else s.takeIllegal

/-- 47_system.md R229: bits 7:0 of the register. -/
def execCsrr (rd : RegNum) (csr : Csr) (s : State) : Result := s.finishReg rd ((s.readCsr csr).setWidth 8)

end Sys2Proof.Machine
end

