-- ==== Sys2Proof/Machine/Dispatch.lean ====
section
/-! DEFINITION. What each instruction does: one arm per constructor of Instr. -/

namespace Sys2Proof.Machine

def exec (i : Instr) (s : State) : Host.Outcome State Fault Refusal :=
  match i with
  -- 47_system.md
  | .nop => Sys2Proof.Machine.execNop s
  | .halt => Sys2Proof.Machine.execHalt s
  | .csrwi csr imm16 => Sys2Proof.Machine.execCsrwi csr imm16 s
  | .csrw csr ra => Sys2Proof.Machine.execCsrw csr ra s
  | .csrr rd csr => Sys2Proof.Machine.execCsrr rd csr s
  -- 40_gf_arith.md
  | .gfadd rd ra rb => Sys2Proof.Machine.execGfadd rd ra rb s
  | .gfmul rd ra rb => Sys2Proof.Machine.execGfmul rd ra rb s
  | .gfinv rd ra => Sys2Proof.Machine.execGfinv rd ra s
  | .gfpow rd ra rb => Sys2Proof.Machine.execGfpow rd ra rb s
  -- 41_polynomial_eval.md, 42_interpolate.md, 43_combine.md
  | .peval rd ra => Sys2Proof.Machine.execPeval rd ra s
  | .linterp rd ra => Sys2Proof.Machine.execLinterp rd ra s
  | .combine => Sys2Proof.Machine.execCombine s
  -- 44_const_time.md
  | .ceq rd ra rb => Sys2Proof.Machine.execCeq rd ra rb s
  | .csel rd ra rb rc => Sys2Proof.Machine.execCsel rd ra rb rc s
  | .meq rd ra => Sys2Proof.Machine.execMeq rd ra s
  | .mzero ra => Sys2Proof.Machine.execMzero ra s
  -- 45_data_movement.md
  | .ldi rd imm8 => Sys2Proof.Machine.execLdi rd imm8 s
  | .mov rd ra => Sys2Proof.Machine.execMov rd ra s
  | .ldb rd imm16 => Sys2Proof.Machine.execLdb rd imm16 s
  | .ldbx rd ra imm16 => Sys2Proof.Machine.execLdbx rd ra imm16 s
  | .stb rs imm16 => Sys2Proof.Machine.execStb rs imm16 s
  | .stbx rs ra imm16 => Sys2Proof.Machine.execStbx rs ra imm16 s
  | .iadd rd ra rb => Sys2Proof.Machine.execIadd rd ra rb s
  | .iaddi rd ra imm8 => Sys2Proof.Machine.execIaddi rd ra imm8 s
  -- 46_control.md
  | .jmp target => Sys2Proof.Machine.execJmp target s
  | .loop target => Sys2Proof.Machine.execLoop target s

end Sys2Proof.Machine
end

