-- ==== Sys2Proof/Machine/Step.lean ====
section
/-! DEFINITION. One step of the engine (10_state.md R20, 30_encoding.md R98). -/

namespace Sys2Proof.Machine

/-- In `RUN` the engine fetches the word at `pc` and executes it, or raises `IllegalInstruction`; in the other run states it does
nothing and keeps all state (10_state.md R20, 60_exceptions.md R277). The host's transactions are `State.transact` (log entry 3). -/
def step (s : State) : Host.Outcome State Fault Refusal :=
  match s.runState with
  | .run =>
    match decode s.fetch with
    | .ok i => exec i s
    | .error _ => s.takeIllegal
  | .idle => .next s
  | .halted => .next s
  | .faulted => .next s

/-- `s` with a word in the place `step` fetches from and the engine running: what the host's `HostWriteImem(pc, w)` and
`HostStart` bring about, since no program comes to run without them (log entry 2). -/
def State.withFetchWord (s : State) (nbits w : Nat) : State :=
  { s.writeImem s.pc (tableWord nbits w) with runState := .run }

end Sys2Proof.Machine
end

