-- ==== Sys2Proof/Machine/Timing.lean ====
section
/-! DEFINITION. The timing law (70_reset_and_hazards.md R305, R306): which public quantities the time of an instruction may depend on. Nothing of the
machine reads a time (R305), so nothing here is called by the step. -/

namespace Sys2Proof.Machine

/-- The opcode byte of an instruction (30_encoding.md R93). -/
def opcodeOf (i : Instr) : BitVec 8 := fieldOp (encode i)

/-- What the time of `i` may depend on in state `s`, by the row of 70_reset_and_hazards.md R306. -/
def State.publicQuantities (s : State) (i : Instr) : PublicQuantities :=
  match i with
  | .nop => { opcode := opcodeOf i }
  | .halt => { opcode := opcodeOf i }
  | .csrwi _ _ => { opcode := opcodeOf i }
  | .csrw _ _ => { opcode := opcodeOf i }
  | .csrr _ _ => { opcode := opcodeOf i }
  | .gfadd _ _ _ => { opcode := opcodeOf i }
  | .gfmul _ _ _ => { opcode := opcodeOf i }
  | .gfinv _ ra => { opcode := opcodeOf i, fault := if s.readReg ra = 0 then some Cause.inverseOfZero.code else none }
  | .gfpow _ _ _ => { opcode := opcodeOf i }
  | .peval _ _ =>
    { opcode := opcodeOf i, ncoef := s.ncoef, fault := if s.ncoef = 0 then some Cause.invalidParameters.code else none }
  | .linterp _ ra => { opcode := opcodeOf i, nsh := s.nsh, fault := (s.linterpFault (s.readReg ra).toNat).map fun f => f.1.code }
  | .combine => { opcode := opcodeOf i, mlen := s.mlen, nsh := s.nsh, fault := s.combineFault.map fun f => f.1.code }
  | .ceq _ _ _ => { opcode := opcodeOf i }
  | .csel _ _ _ _ => { opcode := opcodeOf i }
  | .meq _ ra => { opcode := opcodeOf i, len := s.readReg ra }
  | .mzero ra => { opcode := opcodeOf i, len := s.readReg ra }
  | .ldi _ _ => { opcode := opcodeOf i }
  | .mov _ _ => { opcode := opcodeOf i }
  | .ldb _ _ => { opcode := opcodeOf i }
  | .ldbx _ _ _ => { opcode := opcodeOf i }
  | .stb _ _ => { opcode := opcodeOf i }
  | .stbx _ _ _ => { opcode := opcodeOf i }
  | .iadd _ _ _ => { opcode := opcodeOf i }
  | .iaddi _ _ _ => { opcode := opcodeOf i }
  | .jmp _ => { opcode := opcodeOf i }
  | .loop _ => { opcode := opcodeOf i, lcZero := s.lc == 0 }

/-- `T`: how long the instruction at `pc` takes (70_reset_and_hazards.md R305). -/
def State.latency (s : State) : Nat :=
  match decode s.fetch with
  | .ok i => Config.latency (s.publicQuantities i)
  | .error _ => Config.latency { illegal := true }

end Sys2Proof.Machine
end

