-- ==== Sys2Proof/Machine/Transactions.lean ====
section
/-! DEFINITION. The host: its transactions, their guards and effects (60_exceptions.md R261 to R272), reset (70_reset_and_hazards.md R290 to
R294), and the events of the two agents (10_state.md R20). -/

namespace Sys2Proof.Machine

/-- The transactions of 60_exceptions.md R262 to R270. Indices and addresses are plain numbers, so that one out of range can be asked
for; it is refused (93_implementation_defined.md U22; log entry 8). -/
inductive Transaction where
  /-- `HostReset` (R262). -/
  | reset
  /-- `HostWriteImem(i, w)` (R264). -/
  | writeImem (i : Nat) (w : Word)
  /-- `HostReadImem(i)` (R264). -/
  | readImem (i : Nat)
  /-- `HostWriteDmem(a, v)` (R265). -/
  | writeDmem (a : Nat) (v : Byte)
  /-- `HostReadDmem(a)` (R265). -/
  | readDmem (a : Nat)
  /-- `HostReadCsr(c)` (R266). -/
  | readCsr (c : Nat)
  /-- `HostWriteCsr(c, v)` (R267). -/
  | writeCsr (c : Nat) (v : Half)
  /-- `HostReadReg(i)` (R268). -/
  | readReg (i : Nat)
  /-- `HostWriteReg(i, v)` (R268). -/
  | writeReg (i : Nat) (v : Byte)
  /-- `HostStart` (R270). -/
  | start
  deriving DecidableEq, Repr

/-- What a transaction answers. -/
inductive Response where
  /-- The transaction had its effect and returns nothing. -/
  | done
  /-- A word of `IMEM`. -/
  | word (w : Word)
  /-- A byte of `DMEM` or a general register. -/
  | byte (v : Byte)
  /-- A whole control register, zero-extended to 16 bits (R266). -/
  | half (v : Half)
  /-- The guard is false: an error response and no effect (R261). -/
  | refused
  deriving DecidableEq, Repr

/-- `done`, 1 exactly in `HALTED` and `FAULTED` (60_exceptions.md R252). -/
def State.done (s : State) : Bool := s.runState == .halted || s.runState == .faulted

/-- The effect of `HostReset`: every register and all of data memory as after power-on, `IMEM` kept (70_reset_and_hazards.md R291 to R293). -/
def State.hostReset (s : State) : State := { State.reset with imem := s.imem }

/-- The effect of `HostStart` (60_exceptions.md R270). -/
def State.hostStart (s : State) : State := { s with pc := s.entry, runState := .run }

/-- The control register of number `c`, if there is one. -/
def csrOfIndex (c : Nat) : Option Csr := if c < 16 then csrOfNumber (BitVec.ofNat 4 c) else none

/-- A transaction that is refused: no effect at all (60_exceptions.md R261). -/
def State.refuse (s : State) : State × Response := (s, .refused)

/-- `HostReadCsr(c)` in a run state other than `RUN` (60_exceptions.md R266). -/
def State.hostReadCsr (s : State) (c : Nat) : State × Response :=
  match csrOfIndex c with
  | some r => (s, .half (s.readCsr r))
  | none => s.refuse

/-- `HostWriteCsr(c, v)` in a run state other than `RUN` (60_exceptions.md R267). -/
def State.hostWriteCsr (s : State) (c : Nat) (v : Half) : State × Response :=
  match csrOfIndex c with
  | some r => if r.writable && csrFits r v then (s.writeCsr r v, .done) else s.refuse
  | none => s.refuse

/-- A transaction in a run state other than `RUN` (60_exceptions.md R262 to R270). -/
def State.transactStopped (s : State) (t : Transaction) : State × Response :=
  match t with
  | .reset => (s.hostReset, .done)
  | .writeImem i w => if i < 256 then (s.writeImem (BitVec.ofNat 8 i) w, .done) else s.refuse
  | .readImem i => if i < 256 then (s, .word (s.readImem (BitVec.ofNat 8 i))) else s.refuse
  | .writeDmem a v => if a < Config.dmemBytes then (s.memWrite a v, .done) else s.refuse
  | .readDmem a => if a < Config.dmemBytes then (s, .byte (s.memRead a)) else s.refuse
  | .readCsr c => s.hostReadCsr c
  | .writeCsr c v => s.hostWriteCsr c v
  | .readReg i => if i < 16 then (s, .byte (s.readReg (BitVec.ofNat 4 i))) else s.refuse
  | .writeReg i v => if i < 16 then (s.writeReg (BitVec.ofNat 4 i) v, .done) else s.refuse
  | .start => if s.runState = .faulted then s.refuse else (s.hostStart, .done)

/-- A transaction in `RUN`: only `HostReset` and `HostReadCsr(STATUS)` are accepted (60_exceptions.md R263). -/
def State.transactRunning (s : State) (t : Transaction) : State × Response :=
  match t with
  | .reset => (s.hostReset, .done)
  | .readCsr 0 => (s, .half (s.readCsr .status))
  | .readCsr (_ + 1) => s.refuse
  | .writeImem _ _ => s.refuse
  | .readImem _ => s.refuse
  | .writeDmem _ _ => s.refuse
  | .readDmem _ => s.refuse
  | .writeCsr _ _ => s.refuse
  | .readReg _ => s.refuse
  | .writeReg _ _ => s.refuse
  | .start => s.refuse

/-- One transaction of the host: the state after it and the answer. It is total (60_exceptions.md R272). -/
def State.transact (s : State) (t : Transaction) : State × Response :=
  if s.runState = .run then s.transactRunning t else s.transactStopped t

/-- What can happen to the machine: a step of the engine, or a transaction (10_state.md R20). A reset that arrives during an
instruction leaves no trace of it (70_reset_and_hazards.md R294), so it is a reset between two steps (log entry 12). -/
inductive Event where
  | engine
  | host (t : Transaction)
  deriving DecidableEq, Repr

/-- The outcome of one event. -/
def State.event (s : State) : Event → Result
  | .engine => step s
  | .host t => .next (s.transact t).1

end Sys2Proof.Machine
end

