-- ==== Sys2Proof/Safety.lean ====
section
/-! DEFINITION. The terms claims are stated in: the invariant of the machine, what a state keeps from another one (frames), and the shapes
of an instruction's end. -/

namespace Sys2Proof.Machine

/-! ## The invariant -/

/-- What `CAUSE` and `FINFO` may hold after a fault: the causes the engine raises with the `FINFO` of each (60_exceptions.md R243, R245). A
share position is at most 254, since `NSH` is at most 255. -/
def faultInfoLegal (cause : BitVec 8) (finfo : BitVec 16) : Bool :=
  (cause == 1 && 1 ≤ finfo && finfo ≤ 5) ||
  (cause == 2 && finfo.extractLsb' 8 8 < finfo.extractLsb' 0 8 && finfo.extractLsb' 0 8 < 255) ||
  (cause == 5 && finfo < 255) ||
  ((cause == 6 || cause == 7) && finfo == 0)

/-- The fault registers tell of a fault exactly in `FAULTED`: there `EPC` is the index the engine stopped at and `CAUSE`, `FINFO` are a legal
report; otherwise all three are zero (10_state.md R31, R32; 60_exceptions.md R246, R249). -/
def State.faultRecord (s : State) : Bool :=
  match s.runState with
  | .faulted => s.epc == s.pc && faultInfoLegal s.cause s.finfo
  | .idle => s.cause == 0 && s.epc == 0 && s.finfo == 0
  | .run => s.cause == 0 && s.epc == 0 && s.finfo == 0
  | .halted => s.cause == 0 && s.epc == 0 && s.finfo == 0

/-- The invariant of the machine: data memory is in canonical form, and the fault registers agree with the run state. -/
abbrev State.Inv (s : State) : Prop := s.dmem.wf = true ∧ s.faultRecord = true

/-! ## Frames: what `t` keeps of `s`, said through the model's own reads -/

/-- Every general register. -/
def SameRegs (s t : State) : Prop := ∀ r : RegNum, t.readReg r = s.readReg r

/-- Every general register but `rd`. -/
def SameRegsBut (rd : RegNum) (s t : State) : Prop := ∀ r : RegNum, r ≠ rd → t.readReg r = s.readReg r

/-- Every control register, `STATUS` and the fault registers among them. -/
def SameCsrs (s t : State) : Prop := ∀ c : Csr, t.readCsr c = s.readCsr c

/-- Every control register but those of `cs`. -/
def SameCsrsBut (cs : List Csr) (s t : State) : Prop := ∀ c : Csr, c ∉ cs → t.readCsr c = s.readCsr c

/-- Every word of instruction memory. -/
def SameImem (s t : State) : Prop := ∀ i : BitVec 8, t.readImem i = s.readImem i

/-- Every byte of data memory. -/
def SameDmem (s t : State) : Prop := ∀ a : Nat, t.memRead a = s.memRead a

/-- Every byte of data memory outside the `len` bytes from address `base` on (addresses reduced mod 65536). -/
def SameDmemOutside (base len : Nat) (s t : State) : Prop :=
  ∀ a : Nat, (∀ j : Nat, j < len → wrapAddr a ≠ wrapAddr (base + j)) → t.memRead a = s.memRead a

/-! ## How an instruction ends -/

/-- `t` is `s` after `x[rd] <- v` and `pc <- (pc + 1) mod 256`, and nothing else. -/
def WritesReg (s t : State) (rd : RegNum) (v : Byte) : Prop :=
  t.readReg rd = v ∧ t.pc = s.pc + 1 ∧ SameRegsBut rd s t ∧ SameCsrs s t ∧ SameImem s t ∧ SameDmem s t

/-- `t` is `s` after the bytes `vs` were written from data address `base` on and `pc <- (pc + 1) mod 256`, and nothing else. -/
def WritesBytes (s t : State) (base : Nat) (vs : List Byte) : Prop :=
  (∀ j : Nat, j < vs.length → t.memRead (base + j) = vs.getD j 0) ∧ t.pc = s.pc + 1 ∧
    SameDmemOutside base vs.length s t ∧ SameRegs s t ∧ SameCsrs s t ∧ SameImem s t

/-- `t` is `s` after the fault of code `code` with `FINFO` = `info`: `CAUSE`, `EPC`, `FINFO` and `STATUS` are written, and nothing else changes,
`pc` included (60_exceptions.md R246). -/
def Faults (s t : State) (code : BitVec 8) (info : Half) : Prop :=
  t.readCsr .cause = code.setWidth 16 ∧ t.readCsr .epc = s.pc.setWidth 16 ∧ t.readCsr .finfo = info ∧ t.readCsr .status = 3 ∧
    t.pc = s.pc ∧ SameRegs s t ∧ SameCsrsBut [.status, .cause, .epc, .finfo] s t ∧ SameImem s t ∧ SameDmem s t

/-- `i` in `s` and `i'` in `s'` agree on whether they fault, and with which cause. -/
def SameFault (i : Instr) (s : State) (i' : Instr) (s' : State) : Prop :=
  ∀ t t' : State, exec i s = .next t → exec i' s' = .next t' →
    (t.runState = .faulted ↔ t'.runState = .faulted) ∧ (t.runState = .faulted → t.cause = t'.cause)

/-! ## Legal words, from spec/opcode_table.json -/

/-- The opcode byte and the mask of each row; the row's match is the opcode byte with zeros below (30_encoding.md R94). -/
def tableMasks : List (BitVec 8 × Word) :=
  [(0x01, 0xFFFFFFFF), (0x02, 0xFFFFFFFF), (0x03, 0xFF0F0000), (0x04, 0xFF00FFFF), (0x05, 0xFF00FFFF), (0x10, 0xFF000FFF),
    (0x11, 0xFF000FFF), (0x12, 0xFF00FFFF), (0x13, 0xFF000FFF)] ++
  [(0x20, 0xFF00FFFF), (0x21, 0xFF00FFFF), (0x22, 0xFFFFFFFF), (0x30, 0xFF000FFF), (0x31, 0xFF0000FF), (0x32, 0xFF00FFFF),
    (0x33, 0xFFF0FFFF)] ++
  [(0x40, 0xFF0FFF00), (0x41, 0xFF00FFFF), (0x42, 0xFF0F0000), (0x43, 0xFF000000), (0x44, 0xFF0F0000), (0x45, 0xFF000000),
    (0x46, 0xFF000FFF), (0x47, 0xFF00FF00), (0x50, 0xFFFFFF00), (0x51, 0xFFFFFF00)]

/-- A word is legal when some row's opcode byte is its bits 31:24, it passes that row's mask test, and the control-register number, where the
row has one, is one the instruction accepts (30_encoding.md R94, R96, R99). -/
def LegalWord (w : Word) : Prop :=
  ∃ row ∈ tableMasks, row.1 = w.extractLsb' 24 8 ∧ w &&& row.2 = row.1 ++ 0#24 ∧
    (row.1 = 0x05 → w.extractLsb' 16 4 ≤ 13) ∧
    (row.1 = 0x03 ∨ row.1 = 0x04 → 4 ≤ w.extractLsb' 20 4 ∧ w.extractLsb' 20 4 ≤ 13)

/-- The rows of 10_state.md R28: number, name, whether 16 bits wide, whether writable, reset value. -/
def csrTable : List (BitVec 4 × Csr × Bool × Bool × Half) :=
  [(0, .status, false, false, 0x00), (1, .cause, false, false, 0x00), (2, .epc, false, false, 0x00), (3, .finfo, true, false, 0x0000),
    (4, .entry, false, true, 0x00), (5, .mlen, false, true, 0x40), (6, .nsh, false, true, 0x00), (7, .sbase, true, true, 0x0000),
    (8, .obase, true, true, 0x0000), (9, .cbase, true, true, 0x0000), (10, .ncoef, false, true, 0x00), (11, .abase, true, true, 0x0000),
    (12, .bbase, true, true, 0x0000), (13, .lc, false, true, 0x00)]

/-! ## Where an instruction may write, and what it may raise -/

/-- The general register an instruction names as its destination (30_encoding.md R93). -/
def destReg : Instr → Option RegNum
  | .csrr rd _ => some rd
  | .gfadd rd _ _ => some rd
  | .gfmul rd _ _ => some rd
  | .gfinv rd _ => some rd
  | .gfpow rd _ _ => some rd
  | .peval rd _ => some rd
  | .linterp rd _ => some rd
  | .ceq rd _ _ => some rd
  | .csel rd _ _ _ => some rd
  | .meq rd _ => some rd
  | .ldi rd _ => some rd
  | .mov rd _ => some rd
  | .ldb rd _ => some rd
  | .ldbx rd _ _ => some rd
  | .iadd rd _ _ => some rd
  | .iaddi rd _ _ => some rd
  | .nop => none
  | .halt => none
  | .csrwi _ _ => none
  | .csrw _ _ => none
  | .combine => none
  | .mzero _ => none
  | .stb _ _ => none
  | .stbx _ _ _ => none
  | .jmp _ => none
  | .loop _ => none

/-- The control register an instruction writes when it completes (10_state.md R27, R29). -/
def destCsr : Instr → Option Csr
  | .csrwi c _ => some c
  | .csrw c _ => some c
  | .loop _ => some .lc
  | .halt => some .status
  | .nop => none
  | .csrr _ _ => none
  | .gfadd _ _ _ => none
  | .gfmul _ _ _ => none
  | .gfinv _ _ => none
  | .gfpow _ _ _ => none
  | .peval _ _ => none
  | .linterp _ _ => none
  | .combine => none
  | .ceq _ _ _ => none
  | .csel _ _ _ _ => none
  | .meq _ _ => none
  | .mzero _ => none
  | .ldi _ _ => none
  | .mov _ _ => none
  | .ldb _ _ => none
  | .ldbx _ _ _ => none
  | .stb _ _ => none
  | .stbx _ _ _ => none
  | .iadd _ _ _ => none
  | .iaddi _ _ _ => none
  | .jmp _ => none

/-- The bytes of data memory an instruction writes when it completes: their first address and how many (20_memory.md R67). -/
def destBytes (s : State) : Instr → Nat × Nat
  | .stb _ imm16 => (absAddr imm16, 1)
  | .stbx _ ra imm16 => (s.indexedAddr imm16 ra, 1)
  | .combine => (s.obase.toNat, s.mlen.toNat)
  | .mzero ra => (s.abase.toNat, (s.readReg ra).toNat)
  | .nop => (0, 0)
  | .halt => (0, 0)
  | .csrwi _ _ => (0, 0)
  | .csrw _ _ => (0, 0)
  | .csrr _ _ => (0, 0)
  | .gfadd _ _ _ => (0, 0)
  | .gfmul _ _ _ => (0, 0)
  | .gfinv _ _ => (0, 0)
  | .gfpow _ _ _ => (0, 0)
  | .peval _ _ => (0, 0)
  | .linterp _ _ => (0, 0)
  | .ceq _ _ _ => (0, 0)
  | .csel _ _ _ _ => (0, 0)
  | .meq _ _ => (0, 0)
  | .ldi _ _ => (0, 0)
  | .mov _ _ => (0, 0)
  | .ldb _ _ => (0, 0)
  | .ldbx _ _ _ => (0, 0)
  | .iadd _ _ _ => (0, 0)
  | .iaddi _ _ _ => (0, 0)
  | .jmp _ => (0, 0)
  | .loop _ => (0, 0)

/-- The cause codes a legal instruction can raise at execution (60_exceptions.md R244). -/
def raisable : Instr → List (BitVec 8)
  | .gfinv _ _ => [6]
  | .peval _ _ => [1]
  | .linterp _ _ => [1, 5, 2]
  | .combine => [1, 5, 2]
  | .csrwi _ _ => [1]
  | .nop => []
  | .halt => []
  | .csrw _ _ => []
  | .csrr _ _ => []
  | .gfadd _ _ _ => []
  | .gfmul _ _ _ => []
  | .gfpow _ _ _ => []
  | .ceq _ _ _ => []
  | .csel _ _ _ _ => []
  | .meq _ _ => []
  | .mzero _ => []
  | .ldi _ _ => []
  | .mov _ _ => []
  | .ldb _ _ => []
  | .ldbx _ _ _ => []
  | .stb _ _ => []
  | .stbx _ _ _ => []
  | .iadd _ _ _ => []
  | .iaddi _ _ _ => []
  | .jmp _ => []
  | .loop _ => []

/-! ## Conditions on a share array (42_interpolate.md R151) -/

/-- `i` is the lowest position below `n` whose index byte is `0x00`. -/
def FirstZeroAt (s : State) (n i : Nat) : Prop := i < n ∧ s.shareX i = 0 ∧ ∀ i' < i, s.shareX i' ≠ 0

/-- No index byte is `0x00`, and `(i, j)`, `i < j`, is the first pair of positions below `n`, in dictionary order, with equal index bytes. -/
def FirstDuplicateAt (s : State) (n i j : Nat) : Prop :=
  (∀ k < n, s.shareX k ≠ 0) ∧ i < j ∧ j < n ∧ s.shareX i = s.shareX j ∧
    ∀ i' j', i' < j' → j' < n → s.shareX i' = s.shareX j' → i < i' ∨ (i = i' ∧ j ≤ j')

/-- The index bytes below `n` are all nonzero and all different. -/
def IndicesGood (s : State) (n : Nat) : Prop :=
  (∀ k < n, s.shareX k ≠ 0) ∧ ∀ i j, i < j → j < n → s.shareX i ≠ s.shareX j

end Sys2Proof.Machine
end

