-- ==== Sys2Proof/Certificates/Slice0/Obligations.lean ====
section
/-! DEFINITION. The statements for the provers. Each formalises the rules of spec/ its docstring names; OBLIGATIONS.json lists them. -/

open Sys2Proof Sys2Proof.Machine

/-! ## Encoding (30_encoding.md) -/

/-- R102 and 95_test_vectors.md section 9: words of every family, written out, decode to the instruction they stand for. -/
def Obligations.WordsOfTheSpecDecode : Prop :=
  decode 0x01000000 = .ok .nop ∧ decode 0x03D000FF = .ok (.csrwi .lc 0xFF) ∧ decode 0x05400000 = .ok (.csrr 4 .status) ∧
  decode 0x11312000 = .ok (.gfmul 3 1 2) ∧ decode 0x20210000 = .ok (.peval 2 1) ∧ decode 0x31512300 = .ok (.csel 5 1 2 3) ∧
  decode 0x45240300 = .ok (.stbx 2 4 0x0300) ∧ decode 0x51000002 = .ok (.loop 0x02)

/-- R93 against R99: decoding the word of a well-formed instruction gives it back, at every value of every operand. -/
def Obligations.DecodeOfEncodeGivesTheInstruction : Prop :=
  ∀ i : Instr, i.wellFormed = true → decode (encode i) = .ok i

/-- R99 against R93: a word that decodes is the word of a well-formed instruction, so no bit of it is dropped and no two words are one instruction. -/
def Obligations.EveryDecodedWordIsTheEncodingOfItsInstruction : Prop :=
  ∀ (w : Word) (i : Instr), decode w = .ok i → i.wellFormed = true ∧ encode i = w

/-- R94, R96, R97, R99: the decoder accepts exactly the legal words of the opcode table, and 230 opcode bytes are unassigned. -/
def Obligations.DecoderAcceptsExactlyTheLegalWords : Prop :=
  (∀ w : Word, (∃ i, decode w = .ok i) ↔ LegalWord w) ∧
  ((List.range 256).filter fun op => !(tableMasks.map fun row => row.1.toNat).contains op).length = 230

/-- 10_state.md R28 and R42: the control registers have the numbers, widths, access and reset values of the table; 14 and 15 are reserved. -/
def Obligations.ControlRegisterFileIsTheTable : Prop :=
  (∀ n c wide writable reset, (n, c, wide, writable, reset) ∈ csrTable →
    State.reset.readCsr c = reset ∧ (∀ s : State, wide = false → s.readCsr c < 256) ∧
    (∀ rd : RegNum, decode (0x05#8 ++ rd ++ n ++ 0#16) = .ok (.csrr rd c)) ∧
    (∀ imm16 : Half, decode (0x03#8 ++ n ++ 0#4 ++ imm16) = if writable then .ok (.csrwi c imm16) else .error .csrNumber) ∧
    (∀ ra : RegNum, decode (0x04#8 ++ n ++ ra ++ 0#16) = if writable then .ok (.csrw c ra) else .error .csrNumber) ∧
    (∀ s : State, s.runState ≠ .run → s.transact (.readCsr n.toNat) = (s, .half (s.readCsr c))) ∧
    (∀ (s : State) (v : Half), s.runState ≠ .run → (wide = true ∨ v < 256) →
      s.transact (.writeCsr n.toNat v) = if writable then (s.writeCsr c v, .done) else (s, .refused)) ∧
    (∀ (s : State) (v : Half), writable = true → (wide = true ∨ v < 256) → (s.writeCsr c v).readCsr c = v)) ∧
  (∀ n : BitVec 4, n = 14 ∨ n = 15 →
    (∀ rd : RegNum, decode (0x05#8 ++ rd ++ n ++ 0#16) = .error .csrNumber) ∧
    (∀ imm16 : Half, decode (0x03#8 ++ n ++ 0#4 ++ imm16) = .error .csrNumber) ∧
    (∀ ra : RegNum, decode (0x04#8 ++ n ++ ra ++ 0#16) = .error .csrNumber) ∧
    (∀ s : State, s.transact (.readCsr n.toNat) = (s, .refused)) ∧
    (∀ (s : State) (v : Half), s.transact (.writeCsr n.toNat v) = (s, .refused)))

/-! ## The step (10_state.md R20, R25; 60_exceptions.md) -/

/-- R20, R25, R45: in `RUN`, when the word at `pc` decodes, the step is `exec` of the instruction, with nothing around it. -/
def Obligations.StepRunsTheDecodedInstruction : Prop :=
  ∀ (s : State) (i : Instr), s.runState = .run → decode (s.readImem s.pc) = .ok i → step s = exec i s

/-- R277: outside `RUN` the engine does nothing and keeps all state. -/
def Obligations.EngineDoesNothingOutsideRun : Prop :=
  ∀ s : State, s.readCsr .status ≠ 1 → step s = .next s

/-- R98: a word that is not legal raises IllegalInstruction when it is fetched and changes no other state; the all-zero and the all-ones word are
illegal; a legal word is run as one of the 26 instructions. -/
def Obligations.IllegalWordRaisesIllegalInstruction : Prop :=
  (∀ s : State, s.runState = .run → ¬ LegalWord (s.readImem s.pc) → ∃ t, step s = .next t ∧ Faults s t 7 0) ∧
  (∀ s : State, s.runState = .run → LegalWord (s.readImem s.pc) → ∃ i, i.wellFormed = true ∧ step s = exec i s) ∧
  ¬ LegalWord 0x00000000 ∧ ¬ LegalWord 0xFFFFFFFF

/-- R98, R240, R305: from every state the step answers a next state: the model never stops. -/
def Obligations.StepAlwaysAnswersANextState : Prop :=
  ∀ s : State, ∃ t, step s = .next t

/-- The invariant, from every state that meets it: data memory stays canonical, and the fault registers agree with the run state: a legal report
of the cause with `EPC` = `pc` in `FAULTED`, zero otherwise (R31, R32, R243, R245, R246). -/
def Obligations.StepKeepsTheInvariant : Prop :=
  ∀ s t : State, s.Inv → step s = .next t → t.Inv

/-- The invariant holds after power-on. -/
def Obligations.ResetMeetsTheInvariant : Prop := State.reset.Inv

/-- Every transaction of the host keeps the invariant. -/
def Obligations.TransactionsKeepTheInvariant : Prop :=
  ∀ (s : State) (tr : Transaction), s.Inv → (s.transact tr).1.Inv

/-- R30, R252: the byte `STATUS` reads as and its hardwired zeros; the only ways the run state changes, in a step and in a transaction; no agent
writes it; CSRR reads `0x01`; and `done` is 1 exactly in `HALTED` and `FAULTED`. -/
def Obligations.RunStateChangesOnlyAsListed : Prop :=
  (∀ s : State, s.readCsr .status = (match s.runState with | .idle => 0 | .run => 1 | .halted => 2 | .faulted => 3)) ∧
  (∀ s t : State, step s = .next t → t.runState ≠ s.runState →
    s.runState = .run ∧ ((t.runState = .halted ∧ decode (s.readImem s.pc) = .ok .halt) ∨
      (t.runState = .faulted ∧ ∃ code info, code ≠ 0 ∧ Faults s t code info))) ∧
  (∀ (s : State) (tr : Transaction), (s.transact tr).1.runState ≠ s.runState →
    (tr = .reset ∧ (s.transact tr).1.runState = .idle) ∨
      (tr = .start ∧ (s.runState = .idle ∨ s.runState = .halted) ∧ (s.transact tr).1.runState = .run)) ∧
  (∀ (s : State) (v : Half), s.transact (.writeCsr 0 v) = (s, .refused)) ∧
  (∀ (imm16 : Half) (ra : RegNum), decode (0x03#8 ++ 0#4 ++ 0#4 ++ imm16) = .error .csrNumber ∧
    decode (0x04#8 ++ 0#4 ++ ra ++ 0#16) = .error .csrNumber) ∧
  (∀ (s : State) (rd : RegNum), s.runState = .run → ∃ t, exec (.csrr rd .status) s = .next t ∧ t.readReg rd = 1) ∧
  (∀ s : State, s.done = true ↔ s.readCsr .status = 2 ∨ s.readCsr .status = 3)

/-- R246, R247, R10: a step into `FAULTED` writes `CAUSE`, `EPC`, `FINFO` and `STATUS` and nothing else: no partial result, `pc` kept. -/
def Obligations.FaultsArePrecise : Prop :=
  ∀ s t : State, s.runState = .run → step s = .next t → t.runState = .faulted →
    t.epc = s.pc ∧ t.pc = s.pc ∧ t.regs = s.regs ∧ t.dmem = s.dmem ∧ t.imem = s.imem ∧
      SameCsrsBut [.status, .cause, .epc, .finfo] s t

/-- R244: which legal instruction can raise what. -/
def Obligations.InstructionsRaiseOnlyTheirCauses : Prop :=
  ∀ (i : Instr) (s t : State), i.wellFormed = true → s.runState = .run → exec i s = .next t → t.runState = .faulted →
    t.cause ∈ raisable i

/-- R27, R29, R44, R45, R79: an instruction that does not fault changes no register but its destination, no control register but the one it writes, and no
byte of data memory but those it stores; and no step, faulting or not, changes instruction memory, so a run never modifies its own program. -/
def Obligations.InstructionsChangeOnlyTheirDestinations : Prop :=
  (∀ (i : Instr) (s t : State), exec i s = .next t → t.runState ≠ .faulted →
    (∀ r : RegNum, destReg i ≠ some r → t.readReg r = s.readReg r) ∧
    (∀ c : Csr, destCsr i ≠ some c → t.readCsr c = s.readCsr c) ∧
    SameDmemOutside (destBytes s i).1 (destBytes s i).2 s t ∧ SameImem s t) ∧
  ∀ s t : State, step s = .next t → t.imem = s.imem

/-- R26: `pc` advances by one modulo 256, but for JMP, a taken LOOP, HALT and a faulting instruction; the host does not write it, and `HostStart` loads it. -/
def Obligations.PcAdvancesModulo256OrGoesToTheTarget : Prop :=
  (∀ (i : Instr) (s t : State), s.runState = .run → exec i s = .next t →
    (t.runState = .faulted → t.pc = s.pc) ∧ (i = .halt → t.pc = s.pc) ∧
    (∀ target, i = .jmp target ∨ (i = .loop target ∧ s.lc ≠ 0) → t.pc = target) ∧
    (t.runState ≠ .faulted → i ≠ .halt → (∀ target, i ≠ .jmp target) → (∀ target, i = .loop target → s.lc = 0) →
      t.pc.toNat = (s.pc.toNat + 1) % 256)) ∧
  (∀ (s : State) (tr : Transaction), tr ≠ .reset → tr ≠ .start → (s.transact tr).1.pc = s.pc) ∧
  (∀ s : State, s.runState = .idle ∨ s.runState = .halted → (s.transact .start).1.pc = s.entry)

/-- R76 (a): a load after a store gives the byte stored where the address is the same (mod 65536), and what was there before where it is not. -/
def Obligations.LoadAfterStoreReadsTheLatestWrite : Prop :=
  ∀ (s : State) (rs rd : RegNum) (a b : Half), ∃ t u, exec (.stb rs a) s = .next t ∧ exec (.ldb rd b) t = .next u ∧
    (a = b → u.readReg rd = s.readReg rs) ∧ (a ≠ b → u.readReg rd = s.memRead b.toNat)

/-- R305, R306 (with R130, R144, R156, R174, R184, R206): the time of an instruction is the same in two states that agree on the quantities its row of
R306 names, whatever else differs. The latency is a free value (log entry 4). -/
def Obligations.TimeDependsOnlyOnThePublicQuantities : Prop :=
  (∀ (s s' : State) (e e' : IllegalWord), decode s.fetch = .error e → decode s'.fetch = .error e' → s.latency = s'.latency) ∧
  ∀ (s s' : State) (i i' : Instr), s.runState = .run → s'.runState = .run → decode s.fetch = .ok i → decode s'.fetch = .ok i' →
    (opcodeOf i = opcodeOf i' → opcodeOf i ∉ [0x12, 0x20, 0x21, 0x22, 0x32, 0x33, 0x51] → s.latency = s'.latency) ∧
    (∀ rd ra rd' ra', i = .gfinv rd ra → i' = .gfinv rd' ra' → SameFault i s i' s' → s.latency = s'.latency) ∧
    (∀ target target', i = .loop target → i' = .loop target' → (s.lc = 0 ↔ s'.lc = 0) → s.latency = s'.latency) ∧
    (∀ rd ra rd' ra', i = .peval rd ra → i' = .peval rd' ra' → s.ncoef = s'.ncoef → SameFault i s i' s' → s.latency = s'.latency) ∧
    (∀ rd ra rd' ra', i = .linterp rd ra → i' = .linterp rd' ra' → s.nsh = s'.nsh → SameFault i s i' s' → s.latency = s'.latency) ∧
    (i = .combine → i' = .combine → s.mlen = s'.mlen → s.nsh = s'.nsh → SameFault i s i' s' → s.latency = s'.latency) ∧
    (∀ rd ra rd' ra', i = .meq rd ra → i' = .meq rd' ra' → s.readReg ra = s'.readReg ra' → s.latency = s'.latency) ∧
    (∀ ra ra', i = .mzero ra → i' = .mzero ra' → s.readReg ra = s'.readReg ra' → s.latency = s'.latency)

/-! ## The host (60_exceptions.md R261 to R272, 70_reset_and_hazards.md) -/

/-- R263: in `RUN` every transaction is refused, without effect, but `HostReset` and `HostReadCsr(STATUS)`, which returns `0x0001`. -/
def Obligations.HostAccessIsRefusedDuringRun : Prop :=
  ∀ s : State, s.runState = .run →
    (∀ tr : Transaction, tr ≠ .reset → tr ≠ .readCsr 0 → s.transact tr = (s, .refused)) ∧
    s.transact (.readCsr 0) = (s, .half 1) ∧ (s.transact .reset).2 = .done ∧ (s.transact .reset).1.runState = .idle

/-- R270: `HostStart` from `IDLE` or `HALTED` loads `pc` from `ENTRY` and sets `RUN`, and nothing else changes; in `RUN` and `FAULTED` it is refused. -/
def Obligations.HostStartBeginsARunAtEntry : Prop :=
  ∀ s : State,
    (s.runState = .idle ∨ s.runState = .halted →
      ∃ t, s.transact .start = (t, .done) ∧ t.pc = s.entry ∧ t.readCsr .status = 1 ∧ SameRegs s t ∧ SameCsrsBut [.status] s t ∧
        SameImem s t ∧ SameDmem s t) ∧
    (s.runState = .run ∨ s.runState = .faulted → s.transact .start = (s, .refused))

/-- R249: in `FAULTED` the engine does nothing, no transaction but reset leaves it or touches the recorded fault, `HostStart` is refused, reset clears the
record, and the host may still read everything. -/
def Obligations.FaultedIsLeftOnlyByReset : Prop :=
  ∀ s : State, s.runState = .faulted →
    step s = .next s ∧ s.transact .start = (s, .refused) ∧
    (∀ tr : Transaction, tr ≠ .reset → (s.transact tr).1.runState = .faulted ∧ (s.transact tr).1.cause = s.cause ∧
      (s.transact tr).1.epc = s.epc ∧ (s.transact tr).1.finfo = s.finfo) ∧
    (∃ t, s.transact .reset = (t, .done) ∧ t.runState = .idle ∧ t.cause = 0 ∧ t.epc = 0 ∧ t.finfo = 0) ∧
    (∀ i : BitVec 8, s.transact (.readImem i.toNat) = (s, .word (s.readImem i))) ∧
    (∀ a : Nat, a < 65536 → s.transact (.readDmem a) = (s, .byte (s.memRead a))) ∧
    (∀ r : RegNum, s.transact (.readReg r.toNat) = (s, .byte (s.readReg r))) ∧
    (∀ n c wide writable reset, (n, c, wide, writable, reset) ∈ csrTable → s.transact (.readCsr n.toNat) = (s, .half (s.readCsr c)))

/-- R290 to R293: `HostReset`, from every run state, clears every general register, `pc`, every control register but `MLEN` (64) and every byte of data
memory, keeps instruction memory, and leaves `IDLE`, and nothing else erases a recorded
fault; power-on leaves the same, instruction memory apart. -/
def Obligations.HostResetLeavesTheResetState : Prop :=
  (∀ s : State, ∃ t, s.transact .reset = (t, .done) ∧
    (∀ r : RegNum, t.readReg r = 0) ∧ t.pc = 0 ∧
    (∀ n c wide writable reset, (n, c, wide, writable, reset) ∈ csrTable → t.readCsr c = reset) ∧
    (∀ a : Nat, t.memRead a = 0) ∧ SameImem s t ∧ t.readCsr .status = 0 ∧ step t = .next t ∧
    t = { State.reset with imem := s.imem }) ∧
  (∀ s : State, s.runState = .faulted → step s = .next s ∧ ∀ tr : Transaction, tr ≠ .reset →
    (s.transact tr).1.cause = s.cause ∧ (s.transact tr).1.epc = s.epc ∧ (s.transact tr).1.finfo = s.finfo) ∧
  (∀ r : RegNum, State.reset.readReg r = 0) ∧ State.reset.pc = 0 ∧
  (∀ n c wide writable reset, (n, c, wide, writable, reset) ∈ csrTable → State.reset.readCsr c = reset) ∧
  (∀ a : Nat, State.reset.memRead a = 0)

/-- R264, R265: the host's accesses to the two memories when the engine is stopped: a write has its effect and no other, a read returns what is there; in
`RUN` all four are refused (R263). That an index from 256 or an address from 65536 is refused is the model's reading (log entry 8, DEDUCED from
93_implementation_defined.md U22). -/
def Obligations.HostReachesBothMemoriesWhenStopped : Prop :=
  (∀ s : State, s.runState ≠ .run →
    (∀ (i : BitVec 8) (w : Word), ∃ t, s.transact (.writeImem i.toNat w) = (t, .done) ∧ t.readImem i = w ∧
      (∀ j, j ≠ i → t.readImem j = s.readImem j) ∧ t.pc = s.pc ∧ SameRegs s t ∧ SameCsrs s t ∧ SameDmem s t) ∧
    (∀ i : BitVec 8, s.transact (.readImem i.toNat) = (s, .word (s.readImem i))) ∧
    (∀ (a : Nat) (v : Byte), a < 65536 → ∃ t, s.transact (.writeDmem a v) = (t, .done) ∧ t.memRead a = v ∧
      SameDmemOutside a 1 s t ∧ t.pc = s.pc ∧ SameRegs s t ∧ SameCsrs s t ∧ SameImem s t) ∧
    (∀ a : Nat, a < 65536 → s.transact (.readDmem a) = (s, .byte (s.memRead a))) ∧
    (∀ (i : Nat) (w : Word), 256 ≤ i → s.transact (.writeImem i w) = (s, .refused) ∧ s.transact (.readImem i) = (s, .refused)) ∧
    (∀ (a : Nat) (v : Byte), 65536 ≤ a → s.transact (.writeDmem a v) = (s, .refused) ∧ s.transact (.readDmem a) = (s, .refused))) ∧
  ∀ (s : State) (i a : Nat) (w : Word) (v : Byte), s.runState = .run →
    s.transact (.writeImem i w) = (s, .refused) ∧ s.transact (.readImem i) = (s, .refused) ∧
      s.transact (.writeDmem a v) = (s, .refused) ∧ s.transact (.readDmem a) = (s, .refused)

/-- R268: the host reads and writes any general register when the engine is stopped, and nothing else changes; in `RUN` both are refused (R263). That an
index from 16 is refused is the model's reading (log entry 8, DEDUCED from 93_implementation_defined.md U22). -/
def Obligations.HostReachesGeneralRegistersWhenStopped : Prop :=
  (∀ s : State, s.runState ≠ .run →
    (∀ r : RegNum, s.transact (.readReg r.toNat) = (s, .byte (s.readReg r))) ∧
    (∀ (r : RegNum) (v : Byte), ∃ t, s.transact (.writeReg r.toNat v) = (t, .done) ∧ t.readReg r = v ∧ SameRegsBut r s t ∧
      t.pc = s.pc ∧ SameCsrs s t ∧ SameImem s t ∧ SameDmem s t)) ∧
  ∀ (s : State) (i : Nat) (v : Byte), s.runState = .run ∨ 16 ≤ i →
    s.transact (.readReg i) = (s, .refused) ∧ s.transact (.writeReg i v) = (s, .refused)

/-- R266, R267, R43: the host's accesses to the control registers when the engine is stopped; a write to a read-only or reserved number, or of a value above 255
to an 8-bit register, is refused and changes nothing, and so is a read of number 14 or 15 (R42); in `RUN` all but the read of `STATUS` is refused (R263). That
a number from 16 is refused is the model's reading (log entry 8, DEDUCED from 93_implementation_defined.md U22). -/
def Obligations.HostReachesControlRegistersWhenStopped : Prop :=
  (∀ s : State, s.transact (.readCsr 0) = (s, .half (s.readCsr .status))) ∧
  (∀ (s : State) (n : Nat) (v : Half), s.runState = .run →
    s.transact (.writeCsr n v) = (s, .refused) ∧ (n ≠ 0 → s.transact (.readCsr n) = (s, .refused))) ∧
  ∀ s : State, s.runState ≠ .run →
    (∀ n c wide writable reset, (n, c, wide, writable, reset) ∈ csrTable →
      s.transact (.readCsr n.toNat) = (s, .half (s.readCsr c)) ∧
      (∀ v : Half, writable = true → (wide = true ∨ v ≤ 255) → ∃ t, s.transact (.writeCsr n.toNat v) = (t, .done) ∧ t.readCsr c = v ∧
        SameCsrsBut [c] s t ∧ t.pc = s.pc ∧ SameRegs s t ∧ SameImem s t ∧ SameDmem s t) ∧
      (∀ v : Half, (writable = false ∨ (wide = false ∧ 255 < v)) → s.transact (.writeCsr n.toNat v) = (s, .refused))) ∧
    (∀ (n : Nat) (v : Half), 14 ≤ n → s.transact (.readCsr n) = (s, .refused) ∧ s.transact (.writeCsr n v) = (s, .refused))

/-- R269: no transaction but reset and `HostStart` changes `pc` or the run state, and none but reset changes `CAUSE`, `EPC` or `FINFO`. -/
def Obligations.HostCannotWritePcOrFaultRegisters : Prop :=
  ∀ (s : State) (tr : Transaction), tr ≠ .reset →
    (s.transact tr).1.cause = s.cause ∧ (s.transact tr).1.epc = s.epc ∧ (s.transact tr).1.finfo = s.finfo ∧
    (tr ≠ .start → (s.transact tr).1.pc = s.pc ∧ (s.transact tr).1.runState = s.runState)

/-! ## System instructions (47_system.md) -/

/-- R225. -/
def Obligations.NopOnlyAdvancesPc : Prop :=
  decode 0x01000000 = .ok .nop ∧ ¬ LegalWord 0x00000000 ∧
  ∀ s : State, ∃ t, exec .nop s = .next t ∧ t.pc = s.pc + 1 ∧ SameRegs s t ∧ SameCsrs s t ∧ SameImem s t ∧ SameDmem s t

/-- R226: HALT sets `HALTED` and nothing else, `pc` stays; the engine then does nothing until `HostStart`, which loads `pc` from `ENTRY`. -/
def Obligations.HaltEndsTheRun : Prop :=
  decode 0x02000000 = .ok .halt ∧
  ∀ s : State, ∃ t, exec .halt s = .next t ∧ t.readCsr .status = 2 ∧ t.pc = s.pc ∧ SameRegs s t ∧ SameCsrsBut [.status] s t ∧
    SameImem s t ∧ SameDmem s t ∧ step t = .next t ∧
    ∃ u, t.transact .start = (u, .done) ∧ u.pc = s.entry ∧ u.readCsr .status = 1

/-- R227: CSRWI. -/
def Obligations.CsrwiWritesTheConstantOrFaults : Prop :=
  (∀ n c wide reset (imm16 : Half), (n, c, wide, true, reset) ∈ csrTable →
    decode (0x03#8 ++ n ++ 0#4 ++ imm16) = .ok (.csrwi c imm16) ∧
    ∀ s : State,
      (wide = true ∨ imm16 ≤ 255 → ∃ t, exec (.csrwi c imm16) s = .next t ∧ t.readCsr c = imm16 ∧ t.pc = s.pc + 1 ∧
        SameCsrsBut [c] s t ∧ SameRegs s t ∧ SameImem s t ∧ SameDmem s t) ∧
      (wide = false ∧ 255 < imm16 → ∃ t, exec (.csrwi c imm16) s = .next t ∧ Faults s t 1 0x0005)) ∧
  (∀ (n : BitVec 4) (imm16 : Half), n < 4 ∨ 13 < n → decode (0x03#8 ++ n ++ 0#4 ++ imm16) = .error .csrNumber) ∧
  decode 0x03600003 = .ok (.csrwi .nsh 3) ∧ decode 0x03700300 = .ok (.csrwi .sbase 0x0300) ∧ decode 0x03600100 = .ok (.csrwi .nsh 0x0100)

/-- R228: CSRW. -/
def Obligations.CsrwWritesTheByte : Prop :=
  (∀ n c wide reset (ra : RegNum), (n, c, wide, true, reset) ∈ csrTable →
    decode (0x04#8 ++ n ++ ra ++ 0#16) = .ok (.csrw c ra) ∧
    ∀ s : State, ∃ t, exec (.csrw c ra) s = .next t ∧ t.readCsr c = (s.readReg ra).setWidth 16 ∧ t.pc = s.pc + 1 ∧
      SameCsrsBut [c] s t ∧ SameRegs s t ∧ SameImem s t ∧ SameDmem s t) ∧
  (∀ n (ra : RegNum), n < 4#4 ∨ 13#4 < n → decode (0x04#8 ++ n ++ ra ++ 0#16) = .error .csrNumber) ∧
  decode 0x04D30000 = .ok (.csrw .lc 3)

/-- R229: CSRR; `STATUS` reads `0x01`, `CAUSE` and `EPC` read `0x00` on a running engine that meets the invariant. -/
def Obligations.CsrrReadsTheLowByte : Prop :=
  (∀ n c wide writable reset (rd : RegNum), (n, c, wide, writable, reset) ∈ csrTable →
    decode (0x05#8 ++ rd ++ n ++ 0#16) = .ok (.csrr rd c) ∧
    ∀ s : State, ∃ t, exec (.csrr rd c) s = .next t ∧ WritesReg s t rd ((s.readCsr c).extractLsb' 0 8) ∧
      (wide = false → (t.readReg rd).setWidth 16 = s.readCsr c)) ∧
  (∀ (n : BitVec 4) (rd : RegNum), n = 14 ∨ n = 15 → decode (0x05#8 ++ rd ++ n ++ 0#16) = .error .csrNumber) ∧
  (∀ (s : State) (rd : RegNum), s.Inv → s.runState = .run →
    (∃ t, exec (.csrr rd .status) s = .next t ∧ t.readReg rd = 1) ∧
    (∃ t, exec (.csrr rd .cause) s = .next t ∧ t.readReg rd = 0) ∧ (∃ t, exec (.csrr rd .epc) s = .next t ∧ t.readReg rd = 0)) ∧
  decode 0x054D0000 = .ok (.csrr 4 .lc)

/-! ## Field arithmetic (40_gf_arith.md) -/

/-- R126 with R120. -/
def Obligations.GfaddIsExclusiveOr : Prop :=
  ∀ rd ra rb : RegNum, decode (0x10#8 ++ rd ++ ra ++ rb ++ 0#4 ++ 0#8) = .ok (.gfadd rd ra rb) ∧
    ∀ s : State, ∃ t, exec (.gfadd rd ra rb) s = .next t ∧ WritesReg s t rd (s.readReg ra ^^^ s.readReg rb) ∧
      (ra = rb → t.readReg rd = 0) ∧ (s.readReg ra = 0x57 ∧ s.readReg rb = 0x83 → t.readReg rd = 0xD4)

/-- R127, its timing sentence apart: GFMUL writes `gf_mul` of its sources. -/
def Obligations.GfmulIsTheFieldProduct : Prop :=
  ∀ rd ra rb : RegNum, decode (0x11#8 ++ rd ++ ra ++ rb ++ 0#4 ++ 0#8) = .ok (.gfmul rd ra rb) ∧
    ∀ s : State, ∃ t, exec (.gfmul rd ra rb) s = .next t ∧ WritesReg s t rd (gfMul (s.readReg ra) (s.readReg rb)) ∧
      (s.readReg ra = 0 ∨ s.readReg rb = 0 → t.readReg rd = 0) ∧ (s.readReg ra = 1 → t.readReg rd = s.readReg rb) ∧
      (s.readReg rb = 1 → t.readReg rd = s.readReg ra) ∧ (s.readReg ra = 0x57 ∧ s.readReg rb = 0x83 → t.readReg rd = 0xC1)

/-- R128: GFINV faults on `0x00` and otherwise writes the one byte whose product with the source is `0x01`; applied twice it gives the source back. -/
def Obligations.GfinvIsTheInverseOrFaults : Prop :=
  ∀ rd ra : RegNum, decode (0x12#8 ++ rd ++ ra ++ 0#4 ++ 0#4 ++ 0#8) = .ok (.gfinv rd ra) ∧
    ∀ s : State,
      (s.readReg ra = 0 → ∃ t, exec (.gfinv rd ra) s = .next t ∧ Faults s t 6 0x0000) ∧
      (s.readReg ra ≠ 0 → ∃ t b, exec (.gfinv rd ra) s = .next t ∧ WritesReg s t rd b ∧ gfMul (s.readReg ra) b = 1 ∧
        (∀ b', gfMul (s.readReg ra) b' = 1 → b' = b) ∧ (s.readReg ra = 1 → b = 1) ∧ (s.readReg ra = 0x53 → b = 0xCA) ∧
        ∃ u, exec (.gfinv rd rd) t = .next u ∧ u.readReg rd = s.readReg ra)

/-- R129, its timing sentence apart: GFPOW writes the power, with the corner cases the rule lists. -/
def Obligations.GfpowIsThePower : Prop :=
  ∀ rd ra rb : RegNum, decode (0x13#8 ++ rd ++ ra ++ rb ++ 0#4 ++ 0#8) = .ok (.gfpow rd ra rb) ∧
    ∀ s : State, ∃ t, exec (.gfpow rd ra rb) s = .next t ∧ WritesReg s t rd (gfPow (s.readReg ra) (s.readReg rb).toNat) ∧
      (s.readReg rb = 0 → t.readReg rd = 1) ∧ (s.readReg ra = 0 ∧ s.readReg rb ≠ 0 → t.readReg rd = 0) ∧
      (s.readReg ra ≠ 0 ∧ s.readReg rb = 254 → gfMul (s.readReg ra) (t.readReg rd) = 1) ∧
      (s.readReg ra ≠ 0 ∧ s.readReg rb = 255 → t.readReg rd = 1) ∧ (s.readReg ra = 0x02 ∧ s.readReg rb = 0x08 → t.readReg rd = 0x1B)

/-- R122 with R8 and R121: `gf_mul` is the product of the two polynomials over GF(2), bit i the coefficient of x^i, reduced modulo x^8+x^4+x^3+x+1. -/
def Obligations.GfMulIsThePolynomialProductModuloPoly : Prop :=
  ∀ a b : Byte,
    (∑ i ∈ Finset.range 8, if (gfMul a b).getLsbD i then (Polynomial.X : Polynomial (ZMod 2)) ^ i else 0) =
      ((∑ i ∈ Finset.range 8, if a.getLsbD i then (Polynomial.X : Polynomial (ZMod 2)) ^ i else 0) *
        (∑ i ∈ Finset.range 8, if b.getLsbD i then (Polynomial.X : Polynomial (ZMod 2)) ^ i else 0)) %ₘ
      (Polynomial.X ^ 8 + Polynomial.X ^ 4 + Polynomial.X ^ 3 + Polynomial.X + 1)

/-- R125: the field laws. -/
def Obligations.FieldLawsHold : Prop :=
  ∀ a b c : Byte, gfAdd a b = gfAdd b a ∧ gfAdd (gfAdd a b) c = gfAdd a (gfAdd b c) ∧ gfMul a b = gfMul b a ∧
    gfMul (gfMul a b) c = gfMul a (gfMul b c) ∧ gfMul a (gfAdd b c) = gfAdd (gfMul a b) (gfMul a c) ∧ gfAdd a 0 = a ∧ gfMul a 1 = a ∧
    (gfMul a b = 0 → a = 0 ∨ b = 0)

/-- R123 and R124: every nonzero byte has exactly one inverse, `gf_inv`, which is its power 254; and the laws of powers. -/
def Obligations.InverseIsUniqueAndThePower254 : Prop :=
  (∀ a : Byte, a ≠ 0 → gfMul a (gfInv a) = 1 ∧ (∀ b, gfMul a b = 1 → b = gfInv a) ∧ gfInv a = gfPow a 254 ∧ gfPow a 255 = 1) ∧
  (∀ (a : Byte) (m n : Nat), gfPow a (m + n) = gfMul (gfPow a m) (gfPow a n)) ∧
  (∀ n : Nat, n ≠ 0 → gfPow 0 n = 0)

/-! ## Polynomials (41_polynomial_eval.md, 42_interpolate.md, 43_combine.md) -/

/-- R140: Horner's rule gives the sum of the coefficients times the powers of the point; at `0x00`, and for one coefficient, it gives coefficient 0. -/
def Obligations.PolyEvalIsTheValueOfThePolynomial : Prop :=
  ∀ (c : List Byte) (v : Byte),
    polyEval c v = (List.range c.length).foldl (fun acc j => acc ^^^ gfMul (c.getD j 0) (gfPow v j)) 0 ∧
    (c ≠ [] → polyEval c 0 = c.getD 0 0) ∧ (c.length = 1 → polyEval c v = c.getD 0 0)

/-- R141: PEVAL. -/
def Obligations.PevalEvaluatesTheCoefficientVector : Prop :=
  ∀ rd ra : RegNum, decode (0x20#8 ++ rd ++ ra ++ 0#4 ++ 0#4 ++ 0#8) = .ok (.peval rd ra) ∧
    ∀ s : State,
      (s.ncoef = 0 → ∃ t, exec (.peval rd ra) s = .next t ∧ Faults s t 1 0x0002) ∧
      (s.ncoef ≠ 0 → ∃ t, exec (.peval rd ra) s = .next t ∧
        WritesReg s t rd (polyEval ((List.range s.ncoef.toNat).map fun j => s.memRead (s.cbase.toNat + j)) (s.readReg ra)))

/-- R150: for distinct nonzero `xs`, there is one polynomial of degree below n through the points, and `lagrange0` is its value at 0; the divisor is never zero;
for one point the value is `ys[0]`. -/
def Obligations.LagrangeIsTheValueAtZeroOfTheOnePolynomial : Prop :=
  ∀ xs ys : List Byte, xs ≠ [] → ys.length = xs.length → 0 ∉ xs → xs.Nodup →
    (∃ c : List Byte, c.length = xs.length ∧ (∀ i < xs.length, polyEval c (xs.getD i 0) = ys.getD i 0) ∧
      lagrange0 xs ys = polyEval c 0 ∧
      ∀ c' : List Byte, c'.length = xs.length → (∀ i < xs.length, polyEval c' (xs.getD i 0) = ys.getD i 0) → c' = c) ∧
    (∀ i < xs.length, basisDen xs i ≠ 0) ∧ (xs.length = 1 → lagrange0 xs ys = ys.getD 0 0)

/-- R152, R153: LINTERP raises the first fault that applies, in the order of the table, and otherwise writes the interpolated byte. -/
def Obligations.LinterpFaultsInOrderElseInterpolates : Prop :=
  ∀ rd ra : RegNum, decode (0x21#8 ++ rd ++ ra ++ 0#4 ++ 0#4 ++ 0#8) = .ok (.linterp rd ra) ∧
    ∀ s : State,
      (s.mlen = 0 → ∃ t, exec (.linterp rd ra) s = .next t ∧ Faults s t 1 0x0003) ∧
      (s.mlen ≠ 0 → s.nsh = 0 → ∃ t, exec (.linterp rd ra) s = .next t ∧ Faults s t 1 0x0001) ∧
      (s.mlen ≠ 0 → s.nsh ≠ 0 → s.mlen ≤ s.readReg ra → ∃ t, exec (.linterp rd ra) s = .next t ∧ Faults s t 1 0x0004) ∧
      (s.mlen ≠ 0 → s.nsh ≠ 0 → s.readReg ra < s.mlen →
        (∀ i, FirstZeroAt s s.nsh.toNat i → ∃ t, exec (.linterp rd ra) s = .next t ∧ Faults s t 5 (BitVec.ofNat 16 i)) ∧
        (∀ i j, FirstDuplicateAt s s.nsh.toNat i j →
          ∃ t, exec (.linterp rd ra) s = .next t ∧ Faults s t 2 (BitVec.ofNat 16 (256 * i + j))) ∧
        (IndicesGood s s.nsh.toNat → ∃ t, exec (.linterp rd ra) s = .next t ∧
          WritesReg s t rd (lagrange0 ((List.range s.nsh.toNat).map s.shareX)
            ((List.range s.nsh.toNat).map fun i => s.shareY i (s.readReg ra).toNat))))

/-- R165, R166, R167: COMBINE raises the first fault that applies, in the order of the table, with no byte written; otherwise it writes all `csr[MLEN]` bytes at
`csr[OBASE]`, computed from memory as it stood before, and no register. -/
def Obligations.CombineWritesTheWholeSecretOrFaults : Prop :=
  decode 0x22000000 = .ok .combine ∧
    ∀ s : State,
      (s.mlen = 0 → ∃ t, exec .combine s = .next t ∧ Faults s t 1 0x0003) ∧
      (s.mlen ≠ 0 → s.nsh = 0 → ∃ t, exec .combine s = .next t ∧ Faults s t 1 0x0001) ∧
      (s.mlen ≠ 0 → s.nsh ≠ 0 →
        (∀ i, FirstZeroAt s s.nsh.toNat i → ∃ t, exec .combine s = .next t ∧ Faults s t 5 (BitVec.ofNat 16 i)) ∧
        (∀ i j, FirstDuplicateAt s s.nsh.toNat i j → ∃ t, exec .combine s = .next t ∧ Faults s t 2 (BitVec.ofNat 16 (256 * i + j))) ∧
        (IndicesGood s s.nsh.toNat → ∃ t, exec .combine s = .next t ∧
          WritesBytes s t s.obase.toNat ((List.range s.mlen.toNat).map fun p =>
            lagrange0 ((List.range s.nsh.toNat).map s.shareX) ((List.range s.nsh.toNat).map fun i => s.shareY i p))))

/-- R168: on a share array that passes the checks, the byte COMBINE writes for position `p` is the byte LINTERP writes for it. -/
def Obligations.CombineEqualsALoopOfLinterp : Prop :=
  ∀ (s : State) (rd ra : RegNum), s.mlen ≠ 0 → s.nsh ≠ 0 → IndicesGood s s.nsh.toNat → s.readReg ra < s.mlen →
    ∃ t u, exec .combine s = .next t ∧ exec (.linterp rd ra) s = .next u ∧
      t.memRead (s.obase.toNat + (s.readReg ra).toNat) = u.readReg rd

/-- R169: when the share array holds `k` or more shares of one split with threshold `k`, with distinct nonzero indices, COMBINE writes the original secret. -/
def Obligations.CombineRecoversTheSecretOfASplit : Prop :=
  ∀ (s : State) (k : Nat) (coefs : Nat → List Byte), s.mlen ≠ 0 → 1 ≤ k → k ≤ s.nsh.toNat → IndicesGood s s.nsh.toNat →
    (∀ p < s.mlen.toNat, (coefs p).length = k) →
    (∀ p < s.mlen.toNat, ∀ i < s.nsh.toNat, s.shareY i p = polyEval (coefs p) (s.shareX i)) →
    ∃ t, exec .combine s = .next t ∧ ∀ p < s.mlen.toNat, t.memRead (s.obase.toNat + p) = (coefs p).getD 0 0

/-! ## Comparators, selector, erase (44_const_time.md) -/

/-- R180: CEQ. -/
def Obligations.CeqWritesTheOutcome : Prop :=
  ∀ rd ra rb : RegNum, decode (0x30#8 ++ rd ++ ra ++ rb ++ 0#4 ++ 0#8) = .ok (.ceq rd ra rb) ∧
    ∀ s : State,
      (s.readReg ra = s.readReg rb → ∃ t, exec (.ceq rd ra rb) s = .next t ∧ WritesReg s t rd 0x01) ∧
      (s.readReg ra ≠ s.readReg rb → ∃ t, exec (.ceq rd ra rb) s = .next t ∧ WritesReg s t rd 0x00) ∧
      (ra = rb → ∃ t, exec (.ceq rd ra rb) s = .next t ∧ t.readReg rd = 0x01)

/-- R181: CSEL; the condition is true when its byte is anything but `0x00`. -/
def Obligations.CselTakesTheSelectedValue : Prop :=
  (∀ rd ra rb rc : RegNum, decode (0x31#8 ++ rd ++ ra ++ rb ++ rc ++ 0#8) = .ok (.csel rd ra rb rc) ∧
    ∀ s : State,
      (s.readReg rc ≠ 0x00 → ∃ t, exec (.csel rd ra rb rc) s = .next t ∧ WritesReg s t rd (s.readReg ra)) ∧
      (s.readReg rc = 0x00 → ∃ t, exec (.csel rd ra rb rc) s = .next t ∧ WritesReg s t rd (s.readReg rb)) ∧
      (ra = rb → ∃ t, exec (.csel rd ra rb rc) s = .next t ∧ t.readReg rd = s.readReg ra)) ∧
  decode 0x31512300 = .ok (.csel 5 1 2 3)

/-- R182: MEQ writes `0x01` when every pair of bytes is equal and `0x00` when any pair differs; length 0 and equal bases give `0x01`. -/
def Obligations.MeqComparesTheWholeSequences : Prop :=
  ∀ rd ra : RegNum, decode (0x32#8 ++ rd ++ ra ++ 0#4 ++ 0#4 ++ 0#8) = .ok (.meq rd ra) ∧
    ∀ s : State,
      ((∀ j < (s.readReg ra).toNat, s.memRead (s.abase.toNat + j) = s.memRead (s.bbase.toNat + j)) →
        ∃ t, exec (.meq rd ra) s = .next t ∧ WritesReg s t rd 0x01) ∧
      ((∃ j < (s.readReg ra).toNat, s.memRead (s.abase.toNat + j) ≠ s.memRead (s.bbase.toNat + j)) →
        ∃ t, exec (.meq rd ra) s = .next t ∧ WritesReg s t rd 0x00) ∧
      (s.readReg ra = 0 ∨ s.abase = s.bbase → ∃ t, exec (.meq rd ra) s = .next t ∧ t.readReg rd = 0x01)

/-- R183: MZERO clears the bytes of sequence A and nothing else. -/
def Obligations.MzeroClearsTheSequence : Prop :=
  ∀ ra : RegNum, decode (0x33#8 ++ 0#4 ++ ra ++ 0#4 ++ 0#4 ++ 0#8) = .ok (.mzero ra) ∧
    ∀ s : State, ∃ t, exec (.mzero ra) s = .next t ∧ t.pc = s.pc + 1 ∧
      (∀ j < (s.readReg ra).toNat, t.memRead (s.abase.toNat + j) = 0x00) ∧
      SameDmemOutside s.abase.toNat (s.readReg ra).toNat s t ∧ SameRegs s t ∧ SameCsrs s t ∧ SameImem s t ∧
      (s.readReg ra = 0 → SameDmem s t)

/-! ## Data movement and index arithmetic (45_data_movement.md) -/

/-- R200: LDI; a word of it with `ra` or `imm16[15:8]` not zero is illegal. -/
def Obligations.LdiLoadsTheConstant : Prop :=
  (∀ (rd : RegNum) (imm8 : Byte), decode (0x40#8 ++ rd ++ 0#4 ++ (0#8 ++ imm8)) = .ok (.ldi rd imm8) ∧
    ∀ s : State, ∃ t, exec (.ldi rd imm8) s = .next t ∧ WritesReg s t rd imm8) ∧
  (∀ (rd ra : RegNum) (hi imm8 : Byte), ra ≠ 0 ∨ hi ≠ 0 → decode (0x40#8 ++ rd ++ ra ++ (hi ++ imm8)) = .error .mustBeZero) ∧
  decode 0x4010002A = .ok (.ldi 1 0x2A)

/-- R201: MOV. -/
def Obligations.MovCopiesTheRegister : Prop :=
  (∀ rd ra : RegNum, decode (0x41#8 ++ rd ++ ra ++ 0#4 ++ 0#4 ++ 0#8) = .ok (.mov rd ra) ∧
    ∀ s : State, ∃ t, exec (.mov rd ra) s = .next t ∧ WritesReg s t rd (s.readReg ra) ∧ (rd = ra → SameRegs s t)) ∧
  decode 0x41720000 = .ok (.mov 7 2)

/-- R202: LDB. -/
def Obligations.LdbLoadsTheByte : Prop :=
  (∀ (rd : RegNum) (imm16 : Half), decode (0x42#8 ++ rd ++ 0#4 ++ imm16) = .ok (.ldb rd imm16) ∧
    ∀ s : State, ∃ t, exec (.ldb rd imm16) s = .next t ∧ WritesReg s t rd (s.memRead imm16.toNat)) ∧
  decode 0x42100100 = .ok (.ldb 1 0x0100)

/-- R203: LDBX; the address is the sum mod 65536, so that `0xFFFF` with index `0x02` reads `0x0001`. -/
def Obligations.LdbxLoadsTheIndexedByte : Prop :=
  (∀ (rd ra : RegNum) (imm16 : Half), decode (0x43#8 ++ rd ++ ra ++ imm16) = .ok (.ldbx rd ra imm16) ∧
    ∀ s : State, ∃ t, exec (.ldbx rd ra imm16) s = .next t ∧
      WritesReg s t rd (s.memRead ((imm16.toNat + (s.readReg ra).toNat) % 65536)) ∧
      (imm16 = 0xFFFF ∧ s.readReg ra = 0x02 → t.readReg rd = s.memRead 0x0001)) ∧
  decode 0x43540200 = .ok (.ldbx 5 4 0x0200)

/-- R204: STB. -/
def Obligations.StbStoresTheByte : Prop :=
  (∀ (rs : RegNum) (imm16 : Half), decode (0x44#8 ++ rs ++ 0#4 ++ imm16) = .ok (.stb rs imm16) ∧
    ∀ s : State, ∃ t, exec (.stb rs imm16) s = .next t ∧ WritesBytes s t imm16.toNat [s.readReg rs]) ∧
  decode 0x44200301 = .ok (.stb 2 0x0301)

/-- R205: STBX; the sum wraps, and `rd` may equal `ra`, which stores the index value. -/
def Obligations.StbxStoresTheByteIndexed : Prop :=
  (∀ (rs ra : RegNum) (imm16 : Half), decode (0x45#8 ++ rs ++ ra ++ imm16) = .ok (.stbx rs ra imm16) ∧
    ∀ s : State, ∃ t, exec (.stbx rs ra imm16) s = .next t ∧
      WritesBytes s t ((imm16.toNat + (s.readReg ra).toNat) % 65536) [s.readReg rs] ∧
      (rs = ra → t.memRead ((imm16.toNat + (s.readReg ra).toNat) % 65536) = s.readReg ra)) ∧
  decode 0x45240300 = .ok (.stbx 2 4 0x0300)

/-- R207: IADD, unsigned, mod 256. -/
def Obligations.IaddAddsModulo256 : Prop :=
  (∀ rd ra rb : RegNum, decode (0x46#8 ++ rd ++ ra ++ rb ++ 0#4 ++ 0#8) = .ok (.iadd rd ra rb) ∧
    ∀ s : State, ∃ t, exec (.iadd rd ra rb) s = .next t ∧
      WritesReg s t rd (BitVec.ofNat 8 (((s.readReg ra).toNat + (s.readReg rb).toNat) % 256)) ∧
      (s.readReg ra = 0xFF ∧ s.readReg rb = 0x01 → t.readReg rd = 0x00) ∧ (s.readReg ra = 0x80 ∧ s.readReg rb = 0x80 → t.readReg rd = 0x00)) ∧
  decode 0x46411000 = .ok (.iadd 4 1 1)

/-- R208: IADDI; adding `0xFF` subtracts one, adding 0 copies. -/
def Obligations.IaddiAddsTheConstantModulo256 : Prop :=
  (∀ (rd ra : RegNum) (imm8 : Byte), decode (0x47#8 ++ rd ++ ra ++ (0#8 ++ imm8)) = .ok (.iaddi rd ra imm8) ∧
    ∀ s : State, ∃ t, exec (.iaddi rd ra imm8) s = .next t ∧
      WritesReg s t rd (BitVec.ofNat 8 (((s.readReg ra).toNat + imm8.toNat) % 256)) ∧
      (imm8 = 0xFF → t.readReg rd = s.readReg ra - 1) ∧ (imm8 = 0 → t.readReg rd = s.readReg ra)) ∧
  decode 0x47210001 = .ok (.iaddi 2 1 1)

/-! ## Control transfer (46_control.md) -/

/-- R215: JMP; a jump to its own index changes nothing, so it loops for ever. -/
def Obligations.JmpGoesToTheTarget : Prop :=
  (∀ target : Byte, decode (0x50#8 ++ 0#4 ++ 0#4 ++ (0#8 ++ target)) = .ok (.jmp target) ∧
    ∀ s : State, (∃ t, exec (.jmp target) s = .next t ∧ t.pc = target ∧ SameRegs s t ∧ SameCsrs s t ∧ SameImem s t ∧ SameDmem s t) ∧
      (s.runState = .run → decode (s.readImem s.pc) = .ok (.jmp s.pc) → step s = .next s)) ∧
  decode 0x50000010 = .ok (.jmp 0x10)

/-- R216: LOOP counts `LC` down and goes to the target until `LC` is 0, where it falls through: entered with `LC` = c it is taken c times, so that a body that ends in
it runs c+1 times, `LC` being c-t in pass t. -/
def Obligations.LoopCountsDownAndBranches : Prop :=
  (∀ target : Byte, decode (0x51#8 ++ 0#4 ++ 0#4 ++ (0#8 ++ target)) = .ok (.loop target) ∧
    (∀ s : State,
      (s.lc ≠ 0 → ∃ t, exec (.loop target) s = .next t ∧ t.readCsr .lc = s.readCsr .lc - 1 ∧ t.pc = target ∧
        SameCsrsBut [.lc] s t ∧ SameRegs s t ∧ SameImem s t ∧ SameDmem s t) ∧
      (s.lc = 0 → ∃ t, exec (.loop target) s = .next t ∧ t.pc = s.pc + 1 ∧ SameCsrs s t ∧ SameRegs s t ∧ SameImem s t ∧ SameDmem s t)) ∧
    (∀ s : State, ∃ pass : Nat → State, pass 0 = s ∧
      (∀ n < s.lc.toNat, exec (.loop target) (pass n) = .next (pass (n + 1)) ∧ (pass (n + 1)).pc = target) ∧
      (∀ n ≤ s.lc.toNat, (pass n).lc.toNat = s.lc.toNat - n) ∧
      ∃ u, exec (.loop target) (pass s.lc.toNat) = .next u ∧ u.pc = (pass s.lc.toNat).pc + 1 ∧ u.lc = 0)) ∧
  decode 0x51000002 = .ok (.loop 0x02)
end

