-- ==== Sys2Proof/Laws/Encode.lean ====
section
/-! SUPPORT. The fields of a word are what the two formats put there, a word is made of its fields, and control-register numbers read back. -/

namespace Sys2Proof

/-! ## Format R -/

section
variable (op : BitVec 8) (rd ra rb rc : BitVec 4)

@[simp] theorem fieldOp_formatR : fieldOp (formatR op rd ra rb rc) = op := by
  apply BitVec.eq_of_getLsbD_eq
  intro i hi
  simp only [fieldOp, formatR, BitVec.getLsbD_extractLsb', BitVec.getLsbD_append, hi, decide_true, Bool.true_and]
  split_ifs <;> first | omega | (congr 1; omega)
@[simp] theorem fieldRd_formatR : fieldRd (formatR op rd ra rb rc) = rd := by
  apply BitVec.eq_of_getLsbD_eq
  intro i hi
  simp only [fieldRd, formatR, BitVec.getLsbD_extractLsb', BitVec.getLsbD_append, hi, decide_true, Bool.true_and]
  split_ifs <;> first | omega | (congr 1; omega)
@[simp] theorem fieldRa_formatR : fieldRa (formatR op rd ra rb rc) = ra := by
  apply BitVec.eq_of_getLsbD_eq
  intro i hi
  simp only [fieldRa, formatR, BitVec.getLsbD_extractLsb', BitVec.getLsbD_append, hi, decide_true, Bool.true_and]
  split_ifs <;> first | omega | (congr 1; omega)
@[simp] theorem fieldRb_formatR : fieldRb (formatR op rd ra rb rc) = rb := by
  apply BitVec.eq_of_getLsbD_eq
  intro i hi
  simp only [fieldRb, formatR, BitVec.getLsbD_extractLsb', BitVec.getLsbD_append, hi, decide_true, Bool.true_and]
  split_ifs <;> first | omega | (congr 1; omega)
@[simp] theorem fieldRc_formatR : fieldRc (formatR op rd ra rb rc) = rc := by
  apply BitVec.eq_of_getLsbD_eq
  intro i hi
  simp only [fieldRc, formatR, BitVec.getLsbD_extractLsb', BitVec.getLsbD_append, hi, decide_true, Bool.true_and]
  split_ifs <;> first | omega | (congr 1; omega)
end

/-! ## Format I -/

section
variable (op : BitVec 8) (rd ra : BitVec 4) (imm16 : BitVec 16) (imm8 : BitVec 8)

@[simp] theorem fieldOp_formatI : fieldOp (formatI op rd ra imm16) = op := by
  apply BitVec.eq_of_getLsbD_eq
  intro i hi
  simp only [fieldOp, formatI, BitVec.getLsbD_extractLsb', BitVec.getLsbD_append, hi, decide_true, Bool.true_and]
  split_ifs <;> first | omega | (congr 1; omega)
@[simp] theorem fieldRd_formatI : fieldRd (formatI op rd ra imm16) = rd := by
  apply BitVec.eq_of_getLsbD_eq
  intro i hi
  simp only [fieldRd, formatI, BitVec.getLsbD_extractLsb', BitVec.getLsbD_append, hi, decide_true, Bool.true_and]
  split_ifs <;> first | omega | (congr 1; omega)
@[simp] theorem fieldRa_formatI : fieldRa (formatI op rd ra imm16) = ra := by
  apply BitVec.eq_of_getLsbD_eq
  intro i hi
  simp only [fieldRa, formatI, BitVec.getLsbD_extractLsb', BitVec.getLsbD_append, hi, decide_true, Bool.true_and]
  split_ifs <;> first | omega | (congr 1; omega)
@[simp] theorem fieldImm16_formatI : fieldImm16 (formatI op rd ra imm16) = imm16 := by
  apply BitVec.eq_of_getLsbD_eq
  intro i hi
  simp only [fieldImm16, formatI, BitVec.getLsbD_extractLsb', BitVec.getLsbD_append, hi, decide_true, Bool.true_and]
  split_ifs <;> first | omega | (congr 1; omega)
@[simp] theorem fieldImm8_formatI_byteImm : fieldImm8 (formatI op rd ra (byteImm imm8)) = imm8 := by
  apply BitVec.eq_of_getLsbD_eq
  intro i hi
  simp only [fieldImm8, formatI, byteImm, BitVec.getLsbD_extractLsb', BitVec.getLsbD_append, hi, decide_true, Bool.true_and]
  split_ifs <;> first | omega | (congr 1; omega)
end

/-! ## Control-register numbers -/

@[simp] theorem csrOfNumber_number (c : Csr) : csrOfNumber c.number = some c := by cases c <;> decide

theorem number_of_csrOfNumber (n : BitVec 4) (c : Csr) (h : csrOfNumber n = some c) : c.number = n := by
  revert n
  cases c <;> decide

/-- The writable registers are those whose number is at least 4 (30_encoding.md R96). -/
theorem writable_iff_number (c : Csr) : c.writable = true ↔ ¬ c.number < 4#4 := by cases c <;> decide

/-! ## What the parts of the decoder answer -/

theorem decodeRow_ok (w mask pattern : Word) (row : Except IllegalWord Instr) (i : Instr) (h : decodeRow w mask pattern row = .ok i) :
    w &&& mask = pattern ∧ row = .ok i := by
  unfold decodeRow at h
  split at h
  · exact ⟨‹_›, h⟩
  · cases h

theorem decodeCsrRead_ok (n : BitVec 4) (k : Csr → Instr) (i : Instr) (h : decodeCsrRead n k = .ok i) :
    ∃ c : Csr, c.number = n ∧ i = k c := by
  unfold decodeCsrRead at h
  split at h
  · rename_i c hc
    exact ⟨c, number_of_csrOfNumber _ _ hc, by injection h with h; exact h.symm⟩
  · cases h

theorem decodeCsrWrite_ok (n : BitVec 4) (k : Csr → Instr) (i : Instr) (h : decodeCsrWrite n k = .ok i) :
    ∃ c : Csr, c.number = n ∧ c.writable = true ∧ i = k c := by
  unfold decodeCsrWrite at h
  split at h
  · cases h
  · rename_i hn
    obtain ⟨c, hc, hi⟩ := decodeCsrRead_ok n k i h
    exact ⟨c, hc, (writable_iff_number c).mpr (hc ▸ hn), hi⟩

/-! ## A word is made of its fields -/

theorem word_eq_formatI (w : Word) : w = formatI (fieldOp w) (fieldRd w) (fieldRa w) (fieldImm16 w) := by
  apply BitVec.eq_of_getLsbD_eq
  intro i hi
  simp only [formatI, fieldOp, fieldRd, fieldRa, fieldImm16, BitVec.getLsbD_append, BitVec.getLsbD_extractLsb']
  interval_cases i <;> simp

/-! ## The masks of the two formats: what is left of a word is its opcode byte -/

theorem formatR_mask_rd_ra_rb_rc (op : BitVec 8) (rd ra rb rc : BitVec 4) : formatR op rd ra rb rc &&& 0xFF0000FF#32 = formatR op 0#4 0#4 0#4 0#4 := by
  apply BitVec.eq_of_getLsbD_eq
  intro i hi
  simp only [formatR, BitVec.getLsbD_and, BitVec.getLsbD_append]
  interval_cases i <;> simp

theorem formatR_mask_rd_ra_rb (op : BitVec 8) (rd ra rb : BitVec 4) : formatR op rd ra rb 0#4 &&& 0xFF000FFF#32 = formatR op 0#4 0#4 0#4 0#4 := by
  apply BitVec.eq_of_getLsbD_eq
  intro i hi
  simp only [formatR, BitVec.getLsbD_and, BitVec.getLsbD_append]
  interval_cases i <;> simp

theorem formatR_mask_rd_ra (op : BitVec 8) (rd ra : BitVec 4) : formatR op rd ra 0#4 0#4 &&& 0xFF00FFFF#32 = formatR op 0#4 0#4 0#4 0#4 := by
  apply BitVec.eq_of_getLsbD_eq
  intro i hi
  simp only [formatR, BitVec.getLsbD_and, BitVec.getLsbD_append]
  interval_cases i <;> simp

theorem formatR_mask_ra (op : BitVec 8) (ra : BitVec 4) : formatR op 0#4 ra 0#4 0#4 &&& 0xFFF0FFFF#32 = formatR op 0#4 0#4 0#4 0#4 := by
  apply BitVec.eq_of_getLsbD_eq
  intro i hi
  simp only [formatR, BitVec.getLsbD_and, BitVec.getLsbD_append]
  interval_cases i <;> simp

theorem formatI_mask_rd_ra_imm16 (op : BitVec 8) (rd ra : BitVec 4) (imm16 : BitVec 16) : formatI op rd ra imm16 &&& 0xFF000000#32 = formatI op 0#4 0#4 0#16 := by
  apply BitVec.eq_of_getLsbD_eq
  intro i hi
  simp only [formatI, BitVec.getLsbD_and, BitVec.getLsbD_append]
  interval_cases i <;> simp

theorem formatI_mask_rd_imm16 (op : BitVec 8) (rd : BitVec 4) (imm16 : BitVec 16) : formatI op rd 0#4 imm16 &&& 0xFF0F0000#32 = formatI op 0#4 0#4 0#16 := by
  apply BitVec.eq_of_getLsbD_eq
  intro i hi
  simp only [formatI, BitVec.getLsbD_and, BitVec.getLsbD_append]
  interval_cases i <;> simp

theorem formatI_mask_rd_ra (op : BitVec 8) (rd ra : BitVec 4) : formatI op rd ra 0#16 &&& 0xFF00FFFF#32 = formatI op 0#4 0#4 0#16 := by
  apply BitVec.eq_of_getLsbD_eq
  intro i hi
  simp only [formatI, BitVec.getLsbD_and, BitVec.getLsbD_append]
  interval_cases i <;> simp

theorem formatI_mask_rd_imm8 (op : BitVec 8) (rd : BitVec 4) (imm8 : BitVec 8) : formatI op rd 0#4 (byteImm imm8) &&& 0xFF0FFF00#32 = formatI op 0#4 0#4 0#16 := by
  apply BitVec.eq_of_getLsbD_eq
  intro i hi
  simp only [formatI, byteImm, BitVec.getLsbD_and, BitVec.getLsbD_append]
  interval_cases i <;> simp

theorem formatI_mask_rd_ra_imm8 (op : BitVec 8) (rd ra : BitVec 4) (imm8 : BitVec 8) : formatI op rd ra (byteImm imm8) &&& 0xFF00FF00#32 = formatI op 0#4 0#4 0#16 := by
  apply BitVec.eq_of_getLsbD_eq
  intro i hi
  simp only [formatI, byteImm, BitVec.getLsbD_and, BitVec.getLsbD_append]
  interval_cases i <;> simp

theorem formatI_mask_imm8 (op : BitVec 8) (imm8 : BitVec 8) : formatI op 0#4 0#4 (byteImm imm8) &&& 0xFFFFFF00#32 = formatI op 0#4 0#4 0#16 := by
  apply BitVec.eq_of_getLsbD_eq
  intro i hi
  simp only [formatI, byteImm, BitVec.getLsbD_and, BitVec.getLsbD_append]
  interval_cases i <;> simp

/-! ## A word that passes a mask test is made of the fields the mask leaves free -/

theorem formatR_of_mask_rd_ra_rb_rc (op : BitVec 8) (w : Word) (h : w &&& 0xFF0000FF#32 = formatR op 0#4 0#4 0#4 0#4) :
    formatR op (fieldRd w) (fieldRa w) (fieldRb w) (fieldRc w) = w := by
  apply BitVec.eq_of_getLsbD_eq
  intro i hi
  have hb := congrArg (fun v : Word => v.getLsbD i) h
  simp only [formatR, BitVec.getLsbD_and, BitVec.getLsbD_append] at hb
  simp only [formatR, fieldRd, fieldRa, fieldRb, fieldRc, BitVec.getLsbD_append, BitVec.getLsbD_extractLsb']
  interval_cases i <;> simp_all

theorem formatR_of_mask_rd_ra_rb (op : BitVec 8) (w : Word) (h : w &&& 0xFF000FFF#32 = formatR op 0#4 0#4 0#4 0#4) :
    formatR op (fieldRd w) (fieldRa w) (fieldRb w) 0#4 = w := by
  apply BitVec.eq_of_getLsbD_eq
  intro i hi
  have hb := congrArg (fun v : Word => v.getLsbD i) h
  simp only [formatR, BitVec.getLsbD_and, BitVec.getLsbD_append] at hb
  simp only [formatR, fieldRd, fieldRa, fieldRb, BitVec.getLsbD_append, BitVec.getLsbD_extractLsb']
  interval_cases i <;> simp_all

theorem formatR_of_mask_rd_ra (op : BitVec 8) (w : Word) (h : w &&& 0xFF00FFFF#32 = formatR op 0#4 0#4 0#4 0#4) :
    formatR op (fieldRd w) (fieldRa w) 0#4 0#4 = w := by
  apply BitVec.eq_of_getLsbD_eq
  intro i hi
  have hb := congrArg (fun v : Word => v.getLsbD i) h
  simp only [formatR, BitVec.getLsbD_and, BitVec.getLsbD_append] at hb
  simp only [formatR, fieldRd, fieldRa, BitVec.getLsbD_append, BitVec.getLsbD_extractLsb']
  interval_cases i <;> simp_all

theorem formatR_of_mask_ra (op : BitVec 8) (w : Word) (h : w &&& 0xFFF0FFFF#32 = formatR op 0#4 0#4 0#4 0#4) :
    formatR op 0#4 (fieldRa w) 0#4 0#4 = w := by
  apply BitVec.eq_of_getLsbD_eq
  intro i hi
  have hb := congrArg (fun v : Word => v.getLsbD i) h
  simp only [formatR, BitVec.getLsbD_and, BitVec.getLsbD_append] at hb
  simp only [formatR, fieldRa, BitVec.getLsbD_append, BitVec.getLsbD_extractLsb']
  interval_cases i <;> simp_all

theorem formatI_of_mask_rd_ra_imm16 (op : BitVec 8) (w : Word) (h : w &&& 0xFF000000#32 = formatI op 0#4 0#4 0#16) :
    formatI op (fieldRd w) (fieldRa w) (fieldImm16 w) = w := by
  apply BitVec.eq_of_getLsbD_eq
  intro i hi
  have hb := congrArg (fun v : Word => v.getLsbD i) h
  simp only [formatI, BitVec.getLsbD_and, BitVec.getLsbD_append] at hb
  simp only [formatI, fieldRd, fieldRa, fieldImm16, BitVec.getLsbD_append, BitVec.getLsbD_extractLsb']
  interval_cases i <;> simp_all

theorem formatI_of_mask_rd_imm16 (op : BitVec 8) (w : Word) (h : w &&& 0xFF0F0000#32 = formatI op 0#4 0#4 0#16) :
    formatI op (fieldRd w) 0#4 (fieldImm16 w) = w := by
  apply BitVec.eq_of_getLsbD_eq
  intro i hi
  have hb := congrArg (fun v : Word => v.getLsbD i) h
  simp only [formatI, BitVec.getLsbD_and, BitVec.getLsbD_append] at hb
  simp only [formatI, fieldRd, fieldImm16, BitVec.getLsbD_append, BitVec.getLsbD_extractLsb']
  interval_cases i <;> simp_all

theorem formatI_of_mask_rd_ra (op : BitVec 8) (w : Word) (h : w &&& 0xFF00FFFF#32 = formatI op 0#4 0#4 0#16) :
    formatI op (fieldRd w) (fieldRa w) 0#16 = w := by
  apply BitVec.eq_of_getLsbD_eq
  intro i hi
  have hb := congrArg (fun v : Word => v.getLsbD i) h
  simp only [formatI, BitVec.getLsbD_and, BitVec.getLsbD_append] at hb
  simp only [formatI, fieldRd, fieldRa, BitVec.getLsbD_append, BitVec.getLsbD_extractLsb']
  interval_cases i <;> simp_all

theorem formatI_of_mask_rd_imm8 (op : BitVec 8) (w : Word) (h : w &&& 0xFF0FFF00#32 = formatI op 0#4 0#4 0#16) :
    formatI op (fieldRd w) 0#4 (byteImm (fieldImm8 w)) = w := by
  apply BitVec.eq_of_getLsbD_eq
  intro i hi
  have hb := congrArg (fun v : Word => v.getLsbD i) h
  simp only [formatI, BitVec.getLsbD_and, BitVec.getLsbD_append] at hb
  simp only [formatI, byteImm, fieldRd, fieldImm8, BitVec.getLsbD_append, BitVec.getLsbD_extractLsb']
  interval_cases i <;> simp_all

theorem formatI_of_mask_rd_ra_imm8 (op : BitVec 8) (w : Word) (h : w &&& 0xFF00FF00#32 = formatI op 0#4 0#4 0#16) :
    formatI op (fieldRd w) (fieldRa w) (byteImm (fieldImm8 w)) = w := by
  apply BitVec.eq_of_getLsbD_eq
  intro i hi
  have hb := congrArg (fun v : Word => v.getLsbD i) h
  simp only [formatI, BitVec.getLsbD_and, BitVec.getLsbD_append] at hb
  simp only [formatI, byteImm, fieldRd, fieldRa, fieldImm8, BitVec.getLsbD_append, BitVec.getLsbD_extractLsb']
  interval_cases i <;> simp_all

theorem formatI_of_mask_imm8 (op : BitVec 8) (w : Word) (h : w &&& 0xFFFFFF00#32 = formatI op 0#4 0#4 0#16) :
    formatI op 0#4 0#4 (byteImm (fieldImm8 w)) = w := by
  apply BitVec.eq_of_getLsbD_eq
  intro i hi
  have hb := congrArg (fun v : Word => v.getLsbD i) h
  simp only [formatI, BitVec.getLsbD_and, BitVec.getLsbD_append] at hb
  simp only [formatI, byteImm, fieldImm8, BitVec.getLsbD_append, BitVec.getLsbD_extractLsb']
  interval_cases i <;> simp_all

end Sys2Proof
end

