-- ==== Sys2Proof/Laws/Gf.lean ====
section
/-! SUPPORT. The linearity of the field functions: each is additive in each argument, and an additive function on bytes is fixed by its values on
the eight bytes with one bit set. Equations between field functions follow by checking those. -/

namespace Sys2Proof.Machine

theorem gfAdd_eq (a b : Byte) : gfAdd a b = a ^^^ b := rfl

theorem ite_xor_ite (c : Bool) (a b : Byte) : (if c then a ^^^ b else 0) = (if c then a else 0) ^^^ (if c then b else 0) := by
  cases c <;> simp

theorem xor_ite (c d : Bool) (a : Byte) : (if c ^^ d then a else 0) = (if c then a else 0) ^^^ (if d then a else 0) := by
  cases c <;> cases d <;> simp

/-- Multiplication by x is additive. -/
theorem gfXtime_xor (a b : Byte) : gfXtime (a ^^^ b) = gfXtime a ^^^ gfXtime b := by
  rw [gfXtime, gfXtime, gfXtime, BitVec.getLsbD_xor, xor_ite, BitVec.shiftLeft_xor_distrib]
  ac_rfl

theorem gfXtime_zero : gfXtime 0#8 = 0#8 := by decide

/-- `gf_mul` written out: the exclusive or of `a`, shifted by x^i, over the bits `i` of `b`. -/
theorem gfMul_expand (a b : Byte) :
    gfMul a b =
      (if b.getLsbD 0 then a else 0) ^^^ (if b.getLsbD 1 then gfXtime a else 0) ^^^
      (if b.getLsbD 2 then gfXtime (gfXtime a) else 0) ^^^ (if b.getLsbD 3 then gfXtime (gfXtime (gfXtime a)) else 0) ^^^
      (if b.getLsbD 4 then gfXtime (gfXtime (gfXtime (gfXtime a))) else 0) ^^^
      (if b.getLsbD 5 then gfXtime (gfXtime (gfXtime (gfXtime (gfXtime a)))) else 0) ^^^
      (if b.getLsbD 6 then gfXtime (gfXtime (gfXtime (gfXtime (gfXtime (gfXtime a))))) else 0) ^^^
      (if b.getLsbD 7 then gfXtime (gfXtime (gfXtime (gfXtime (gfXtime (gfXtime (gfXtime a)))))) else 0) := by
  have step : ∀ (c : Bool) (p t : Byte), (if c then p ^^^ t else p) = p ^^^ (if c then t else 0) := by
    intro c p t
    cases c <;> simp
  simp only [gfMul, gfMulStep, List.range, List.range.loop, List.foldl, step]
  rw [show (0 : Byte) = 0#8 from rfl, BitVec.zero_xor]

/-- Distributivity on the left. -/
theorem gfMul_xor_left (a a' b : Byte) : gfMul (a ^^^ a') b = gfMul a b ^^^ gfMul a' b := by
  simp only [gfMul_expand, gfXtime_xor, ite_xor_ite]
  ac_rfl

/-- Distributivity on the right. -/
theorem gfMul_xor_right (a b b' : Byte) : gfMul a (b ^^^ b') = gfMul a b ^^^ gfMul a b' := by
  simp only [gfMul_expand, BitVec.getLsbD_xor, xor_ite]
  ac_rfl

@[simp] theorem gfMul_zero_right (a : Byte) : gfMul a 0#8 = 0#8 := by simp [gfMul_expand]

@[simp] theorem gfMul_zero_left (b : Byte) : gfMul 0#8 b = 0#8 := by simp [gfMul_expand, gfXtime_zero]

@[simp] theorem gfMul_one_right (a : Byte) : gfMul a 1#8 = a := by
  rw [gfMul_expand]
  simp

@[simp] theorem gfMul_one_left (b : Byte) : gfMul 1#8 b = b := by
  revert b
  decide +kernel

/-- A byte is the exclusive or of its bits. -/
theorem byte_eq_xor_bits (a : Byte) :
    a = (if a.getLsbD 0 then 0x01 else 0) ^^^ (if a.getLsbD 1 then 0x02 else 0) ^^^ (if a.getLsbD 2 then 0x04 else 0) ^^^
      (if a.getLsbD 3 then 0x08 else 0) ^^^ (if a.getLsbD 4 then 0x10 else 0) ^^^ (if a.getLsbD 5 then 0x20 else 0) ^^^
      (if a.getLsbD 6 then 0x40 else 0) ^^^ (if a.getLsbD 7 then 0x80 else 0) := by
  revert a
  decide +kernel

/-- Two additive functions on bytes that agree on the powers of x below x^8 are equal. -/
theorem additive_ext (f g : Byte → Byte) (hf : ∀ a b, f (a ^^^ b) = f a ^^^ f b) (hg : ∀ a b, g (a ^^^ b) = g a ^^^ g b)
    (h : ∀ i : Fin 8, f (BitVec.twoPow 8 i) = g (BitVec.twoPow 8 i)) (a : Byte) : f a = g a := by
  have zero : ∀ k : Byte → Byte, (∀ a b, k (a ^^^ b) = k a ^^^ k b) → k 0 = 0 := by
    intro k hk
    have := hk 0 0
    simpa using this
  have ite : ∀ (k : Byte → Byte), (∀ a b, k (a ^^^ b) = k a ^^^ k b) → ∀ (c : Bool) (v : Byte),
      k (if c then v else 0) = if c then k v else 0 := by
    intro k hk c v
    cases c
    · simpa using zero k hk
    · rfl
  rw [byte_eq_xor_bits a]
  simp only [hf, hg, ite f hf, ite g hg]
  rw [show f 0x01 = g 0x01 from h 0, show f 0x02 = g 0x02 from h 1, show f 0x04 = g 0x04 from h 2, show f 0x08 = g 0x08 from h 3,
    show f 0x10 = g 0x10 from h 4, show f 0x20 = g 0x20 from h 5, show f 0x40 = g 0x40 from h 6, show f 0x80 = g 0x80 from h 7]

end Sys2Proof.Machine
end

