-- ==== Sys2Proof/Laws/Memory.lean ====
section
/-! SUPPORT. The laws of data memory: a write is read back, it leaves every other address alone, and every operation keeps the canonical form. -/

namespace Sys2Proof.Machine

/-! ## Reading -/

@[simp] theorem Memory.read_nil (a : Nat) : Memory.read [] a = 0 := rfl

theorem Memory.read_cons (k : Nat) (b : Byte) (m : Memory) (a : Nat) :
    Memory.read ((k, b) :: m) a = if k = a then b else m.read a := rfl

theorem Memory.erase_cons (k : Nat) (b : Byte) (m : Memory) (a : Nat) :
    Memory.erase ((k, b) :: m) a = if k = a then m.erase a else (k, b) :: m.erase a := by
  by_cases h : k = a <;> simp [Memory.erase, h]

theorem Memory.read_erase (m : Memory) (a b : Nat) : (m.erase a).read b = if b = a then 0 else m.read b := by
  induction m with
  | nil => simp [Memory.erase]
  | cons c m ih =>
    obtain ⟨k, v⟩ := c
    rw [Memory.erase_cons, Memory.read_cons]
    by_cases hk : k = a
    · rw [if_pos hk, ih]
      by_cases hb : b = a
      · simp [hb]
      · rw [if_neg hb, if_neg hb, if_neg fun h => hb (h.symm.trans hk)]
    · rw [if_neg hk, Memory.read_cons, ih]
      by_cases hkb : k = b
      · rw [if_pos hkb, if_pos hkb, if_neg fun h => hk (hkb.trans h)]
      · rw [if_neg hkb, if_neg hkb]

theorem Memory.read_insert (m : Memory) (a b : Nat) (v : Byte) (hm : ∀ c ∈ m, c.1 ≠ a) :
    (m.insert a v).read b = if b = a then v else m.read b := by
  induction m with
  | nil => simp [Memory.insert, Memory.read_cons, eq_comm]
  | cons c m ih =>
    obtain ⟨k, w⟩ := c
    have hka : k ≠ a := hm (k, w) (by simp)
    have ih := ih fun c hc => hm c (by simp [hc])
    rw [Memory.insert]
    split
    · rw [Memory.read_cons]
      by_cases hb : a = b
      · simp [hb]
      · rw [if_neg hb, if_neg (Ne.symm hb)]
    · rw [Memory.read_cons, ih, Memory.read_cons]
      by_cases hkb : k = b
      · rw [if_pos hkb, if_pos hkb, if_neg fun h => hka (hkb.trans h)]
      · rw [if_neg hkb, if_neg hkb]

theorem Memory.ne_of_mem_erase (m : Memory) (a : Nat) : ∀ c ∈ m.erase a, c.1 ≠ a := by
  intro c hc
  simpa [Memory.erase] using (List.mem_filter.mp hc).2

/-- Read after write, in every memory, canonical or not. -/
theorem Memory.read_write (m : Memory) (a b : Nat) (v : Byte) : (m.write a v).read b = if b = a then v else m.read b := by
  rw [Memory.write]
  split
  · rename_i hv
    rw [Memory.read_erase, hv]
  · rw [Memory.read_insert _ _ _ _ (Memory.ne_of_mem_erase m a), Memory.read_erase]
    by_cases hb : b = a <;> simp [hb]

/-! ## The canonical form -/

theorem Memory.wfFrom_cons (low k : Nat) (b : Byte) (m : Memory) :
    Memory.wfFrom low ((k, b) :: m) = true ↔ low ≤ k ∧ k < Config.dmemBytes ∧ b ≠ 0 ∧ Memory.wfFrom (k + 1) m = true := by
  simp [Memory.wfFrom, and_assoc]

theorem Memory.wfFrom_mono (m : Memory) (low low' : Nat) (h : low' ≤ low) (hm : m.wfFrom low = true) : m.wfFrom low' = true := by
  cases m with
  | nil => rfl
  | cons c m =>
    obtain ⟨k, b⟩ := c
    rw [Memory.wfFrom_cons] at hm ⊢
    exact ⟨h.trans hm.1, hm.2⟩

theorem Memory.wfFrom_erase (m : Memory) (a low : Nat) (hm : m.wfFrom low = true) : (m.erase a).wfFrom low = true := by
  induction m generalizing low with
  | nil => rfl
  | cons c m ih =>
    obtain ⟨k, b⟩ := c
    rw [Memory.wfFrom_cons] at hm
    rw [Memory.erase_cons]
    split
    · exact Memory.wfFrom_mono _ _ _ (by omega) (ih _ hm.2.2.2)
    · rw [Memory.wfFrom_cons]
      exact ⟨hm.1, hm.2.1, hm.2.2.1, ih _ hm.2.2.2⟩

theorem Memory.wfFrom_insert (m : Memory) (a low : Nat) (v : Byte) (hm : m.wfFrom low = true) (hne : ∀ c ∈ m, c.1 ≠ a)
    (hlow : low ≤ a) (ha : a < Config.dmemBytes) (hv : v ≠ 0) : (m.insert a v).wfFrom low = true := by
  induction m generalizing low with
  | nil => exact (Memory.wfFrom_cons low a v []).mpr ⟨hlow, ha, hv, rfl⟩
  | cons c m ih =>
    obtain ⟨k, b⟩ := c
    have hka : k ≠ a := hne (k, b) (by simp)
    rw [Memory.insert]
    split
    · rw [Memory.wfFrom_cons, Memory.wfFrom_cons]
      rw [Memory.wfFrom_cons] at hm
      exact ⟨hlow, ha, hv, by omega, hm.2⟩
    · rw [Memory.wfFrom_cons] at hm ⊢
      exact ⟨hm.1, hm.2.1, hm.2.2.1, ih _ hm.2.2.2 (fun c hc => hne c (by simp [hc])) (by omega)⟩

/-- Every write inside data memory keeps the canonical form. -/
theorem Memory.wf_write (m : Memory) (a : Nat) (v : Byte) (hm : m.wf = true) (ha : a < Config.dmemBytes) : (m.write a v).wf = true := by
  rw [Memory.write]
  split
  · exact Memory.wfFrom_erase m a 0 hm
  · rename_i hv
    exact Memory.wfFrom_insert _ a 0 v (Memory.wfFrom_erase m a 0 hm) (Memory.ne_of_mem_erase m a) (Nat.zero_le a) ha hv

theorem Memory.read_of_wfFrom_of_lt (m : Memory) (low a : Nat) (hm : m.wfFrom low = true) (ha : a < low) : m.read a = 0 := by
  induction m generalizing low with
  | nil => rfl
  | cons c m ih =>
    obtain ⟨k, b⟩ := c
    rw [Memory.wfFrom_cons] at hm
    rw [Memory.read_cons, if_neg (by omega)]
    exact ih _ hm.2.2.2 (by omega)

theorem Memory.read_of_wfFrom_of_ge (m : Memory) (low a : Nat) (hm : m.wfFrom low = true) (ha : Config.dmemBytes ≤ a) : m.read a = 0 := by
  induction m generalizing low with
  | nil => rfl
  | cons c m ih =>
    obtain ⟨k, b⟩ := c
    rw [Memory.wfFrom_cons] at hm
    rw [Memory.read_cons, if_neg (by omega)]
    exact ih _ hm.2.2.2

theorem Memory.ext_wfFrom (m m' : Memory) (low low' : Nat) (hm : m.wfFrom low = true) (hm' : m'.wfFrom low' = true)
    (h : ∀ a, m.read a = m'.read a) : m = m' := by
  induction m generalizing m' low low' with
  | nil =>
    cases m' with
    | nil => rfl
    | cons c m' =>
      obtain ⟨k, b⟩ := c
      rw [Memory.wfFrom_cons] at hm'
      exact absurd (by simpa [Memory.read_cons] using (h k).symm) hm'.2.2.1
  | cons c m ih =>
    obtain ⟨k, b⟩ := c
    rw [Memory.wfFrom_cons] at hm
    cases m' with
    | nil => exact absurd (by simpa [Memory.read_cons] using h k) hm.2.2.1
    | cons c' m' =>
      obtain ⟨k', b'⟩ := c'
      rw [Memory.wfFrom_cons] at hm'
      have hk : k = k' := by
        rcases Nat.lt_trichotomy k k' with hlt | heq | hlt
        · have := h k
          rw [Memory.read_cons, if_pos rfl, Memory.read_cons, if_neg (by omega),
            Memory.read_of_wfFrom_of_lt m' (k' + 1) k hm'.2.2.2 (by omega)] at this
          exact absurd this hm.2.2.1
        · exact heq
        · have := h k'
          rw [Memory.read_cons, if_neg (by omega), Memory.read_of_wfFrom_of_lt m (k + 1) k' hm.2.2.2 (by omega),
            Memory.read_cons, if_pos rfl] at this
          exact absurd this.symm hm'.2.2.1
      subst hk
      have hb : b = b' := by simpa [Memory.read_cons] using h k
      subst hb
      rw [ih m' (k + 1) (k + 1) hm.2.2.2 hm'.2.2.2 fun a => ?_]
      by_cases ha : k = a
      · rw [Memory.read_of_wfFrom_of_lt m (k + 1) a hm.2.2.2 (by omega),
          Memory.read_of_wfFrom_of_lt m' (k + 1) a hm'.2.2.2 (by omega)]
      · simpa [Memory.read_cons, ha] using h a

/-- Canonical memories that read alike are the same data. -/
theorem Memory.ext_wf (m m' : Memory) (hm : m.wf = true) (hm' : m'.wf = true) (h : ∀ a, m.read a = m'.read a) : m = m' :=
  Memory.ext_wfFrom m m' 0 0 hm hm' h

/-- The memory of the state after power-on is canonical. -/
theorem State.reset_dmem_wf : State.reset.dmem.wf = true := rfl

/-! ## `State.memRead`, `State.memWrite`, `State.memWriteBytes` -/

theorem wrapAddr_lt (a : Nat) : wrapAddr a < Config.dmemBytes := Nat.mod_lt _ (by decide)

theorem wrapAddr_of_lt (a : Nat) (h : a < Config.dmemBytes) : wrapAddr a = a := Nat.mod_eq_of_lt h

theorem wrapAddr_add_inj (a i j : Nat) (hi : i < Config.dmemBytes) (hj : j < Config.dmemBytes)
    (h : wrapAddr (a + i) = wrapAddr (a + j)) : i = j := by
  simp only [wrapAddr, Config.dmemBytes] at *
  omega

/-- Two addresses that are equal mod 65536 read alike (20_memory.md R61). -/
theorem State.memRead_congr (s : State) (a b : Nat) (h : wrapAddr a = wrapAddr b) : s.memRead a = s.memRead b := by
  rw [State.memRead, State.memRead, h]

/-- Read after write (20_memory.md R62, R63). -/
theorem State.memRead_memWrite (s : State) (a b : Nat) (v : Byte) :
    (s.memWrite a v).memRead b = if wrapAddr b = wrapAddr a then v else s.memRead b := by
  simp [State.memRead, State.memWrite, Memory.read_write]

theorem State.memWrite_wf (s : State) (a : Nat) (v : Byte) (h : s.dmem.wf = true) : (s.memWrite a v).dmem.wf = true :=
  Memory.wf_write _ _ _ h (wrapAddr_lt a)

theorem State.memWriteBytes_wf (vs : List Byte) : ∀ (s : State) (a : Nat), s.dmem.wf = true → (s.memWriteBytes a vs).dmem.wf = true := by
  induction vs with
  | nil => exact fun s a h => h
  | cons v vs ih => exact fun s a h => ih _ _ (State.memWrite_wf s a v h)

/-- Outside the bytes written, `memWriteBytes` changes nothing. -/
theorem State.memRead_memWriteBytes_of_ne (vs : List Byte) : ∀ (s : State) (a b : Nat),
    (∀ j < vs.length, wrapAddr b ≠ wrapAddr (a + j)) → (s.memWriteBytes a vs).memRead b = s.memRead b := by
  induction vs with
  | nil => exact fun s a b _ => rfl
  | cons v vs ih =>
    intro s a b h
    rw [State.memWriteBytes, ih _ _ _ fun j hj => ?_, State.memRead_memWrite, if_neg (by simpa using h 0 (by simp))]
    rw [Nat.add_assoc, Nat.add_comm 1 j]
    exact h (j + 1) (by simpa using hj)

/-- What `memWriteBytes` writes is read back, when it does not wrap onto itself (20_memory.md R63: it cannot with lengths of at most 255). -/
theorem State.memRead_memWriteBytes (vs : List Byte) : ∀ (s : State) (a j : Nat), vs.length ≤ Config.dmemBytes → j < vs.length →
    (s.memWriteBytes a vs).memRead (a + j) = vs.getD j 0 := by
  induction vs with
  | nil => intro s a j _ h; simp at h
  | cons v vs ih =>
    intro s a j hlen hj
    rw [State.memWriteBytes]
    simp only [List.length_cons] at hlen hj
    cases j with
    | zero =>
      rw [State.memRead_memWriteBytes_of_ne _ _ _ _ fun j hj' h => ?_, State.memRead_memWrite]
      · simp
      · rw [Nat.add_assoc] at h
        exact absurd (wrapAddr_add_inj a 0 (1 + j) (by decide) (by omega) h) (by omega)
    | succ j =>
      rw [show a + (j + 1) = a + 1 + j by omega, ih _ _ _ (by omega) (by omega)]
      rfl

end Sys2Proof.Machine
end

