-- ==== Sys2Proof/Laws/State.lean ====
section
/-! SUPPORT. One lemma per field of State per named update: what the update leaves in that field. Proofs cite these by simp and unfold no
record update. -/

namespace Sys2Proof.Machine

/-! ## `State.writeReg` -/

@[simp] theorem State.writeReg_regs (s : State) (r : RegNum) (v : Byte) : (s.writeReg r v).regs = s.regs.set r.toNat v r.isLt := rfl
@[simp] theorem State.writeReg_pc (s : State) (r : RegNum) (v : Byte) : (s.writeReg r v).pc = s.pc := rfl
@[simp] theorem State.writeReg_runState (s : State) (r : RegNum) (v : Byte) : (s.writeReg r v).runState = s.runState := rfl
@[simp] theorem State.writeReg_cause (s : State) (r : RegNum) (v : Byte) : (s.writeReg r v).cause = s.cause := rfl
@[simp] theorem State.writeReg_epc (s : State) (r : RegNum) (v : Byte) : (s.writeReg r v).epc = s.epc := rfl
@[simp] theorem State.writeReg_finfo (s : State) (r : RegNum) (v : Byte) : (s.writeReg r v).finfo = s.finfo := rfl
@[simp] theorem State.writeReg_entry (s : State) (r : RegNum) (v : Byte) : (s.writeReg r v).entry = s.entry := rfl
@[simp] theorem State.writeReg_mlen (s : State) (r : RegNum) (v : Byte) : (s.writeReg r v).mlen = s.mlen := rfl
@[simp] theorem State.writeReg_nsh (s : State) (r : RegNum) (v : Byte) : (s.writeReg r v).nsh = s.nsh := rfl
@[simp] theorem State.writeReg_sbase (s : State) (r : RegNum) (v : Byte) : (s.writeReg r v).sbase = s.sbase := rfl
@[simp] theorem State.writeReg_obase (s : State) (r : RegNum) (v : Byte) : (s.writeReg r v).obase = s.obase := rfl
@[simp] theorem State.writeReg_cbase (s : State) (r : RegNum) (v : Byte) : (s.writeReg r v).cbase = s.cbase := rfl
@[simp] theorem State.writeReg_ncoef (s : State) (r : RegNum) (v : Byte) : (s.writeReg r v).ncoef = s.ncoef := rfl
@[simp] theorem State.writeReg_abase (s : State) (r : RegNum) (v : Byte) : (s.writeReg r v).abase = s.abase := rfl
@[simp] theorem State.writeReg_bbase (s : State) (r : RegNum) (v : Byte) : (s.writeReg r v).bbase = s.bbase := rfl
@[simp] theorem State.writeReg_lc (s : State) (r : RegNum) (v : Byte) : (s.writeReg r v).lc = s.lc := rfl
@[simp] theorem State.writeReg_imem (s : State) (r : RegNum) (v : Byte) : (s.writeReg r v).imem = s.imem := rfl
@[simp] theorem State.writeReg_dmem (s : State) (r : RegNum) (v : Byte) : (s.writeReg r v).dmem = s.dmem := rfl

/-! ## `State.nextPc` -/

@[simp] theorem State.nextPc_regs (s : State) : s.nextPc.regs = s.regs := rfl
@[simp] theorem State.nextPc_pc (s : State) : s.nextPc.pc = s.pc + 1 := rfl
@[simp] theorem State.nextPc_runState (s : State) : s.nextPc.runState = s.runState := rfl
@[simp] theorem State.nextPc_cause (s : State) : s.nextPc.cause = s.cause := rfl
@[simp] theorem State.nextPc_epc (s : State) : s.nextPc.epc = s.epc := rfl
@[simp] theorem State.nextPc_finfo (s : State) : s.nextPc.finfo = s.finfo := rfl
@[simp] theorem State.nextPc_entry (s : State) : s.nextPc.entry = s.entry := rfl
@[simp] theorem State.nextPc_mlen (s : State) : s.nextPc.mlen = s.mlen := rfl
@[simp] theorem State.nextPc_nsh (s : State) : s.nextPc.nsh = s.nsh := rfl
@[simp] theorem State.nextPc_sbase (s : State) : s.nextPc.sbase = s.sbase := rfl
@[simp] theorem State.nextPc_obase (s : State) : s.nextPc.obase = s.obase := rfl
@[simp] theorem State.nextPc_cbase (s : State) : s.nextPc.cbase = s.cbase := rfl
@[simp] theorem State.nextPc_ncoef (s : State) : s.nextPc.ncoef = s.ncoef := rfl
@[simp] theorem State.nextPc_abase (s : State) : s.nextPc.abase = s.abase := rfl
@[simp] theorem State.nextPc_bbase (s : State) : s.nextPc.bbase = s.bbase := rfl
@[simp] theorem State.nextPc_lc (s : State) : s.nextPc.lc = s.lc := rfl
@[simp] theorem State.nextPc_imem (s : State) : s.nextPc.imem = s.imem := rfl
@[simp] theorem State.nextPc_dmem (s : State) : s.nextPc.dmem = s.dmem := rfl

/-! ## `State.jumpTo` -/

@[simp] theorem State.jumpTo_regs (s : State) (target : Byte) : (s.jumpTo target).regs = s.regs := rfl
@[simp] theorem State.jumpTo_pc (s : State) (target : Byte) : (s.jumpTo target).pc = target := rfl
@[simp] theorem State.jumpTo_runState (s : State) (target : Byte) : (s.jumpTo target).runState = s.runState := rfl
@[simp] theorem State.jumpTo_cause (s : State) (target : Byte) : (s.jumpTo target).cause = s.cause := rfl
@[simp] theorem State.jumpTo_epc (s : State) (target : Byte) : (s.jumpTo target).epc = s.epc := rfl
@[simp] theorem State.jumpTo_finfo (s : State) (target : Byte) : (s.jumpTo target).finfo = s.finfo := rfl
@[simp] theorem State.jumpTo_entry (s : State) (target : Byte) : (s.jumpTo target).entry = s.entry := rfl
@[simp] theorem State.jumpTo_mlen (s : State) (target : Byte) : (s.jumpTo target).mlen = s.mlen := rfl
@[simp] theorem State.jumpTo_nsh (s : State) (target : Byte) : (s.jumpTo target).nsh = s.nsh := rfl
@[simp] theorem State.jumpTo_sbase (s : State) (target : Byte) : (s.jumpTo target).sbase = s.sbase := rfl
@[simp] theorem State.jumpTo_obase (s : State) (target : Byte) : (s.jumpTo target).obase = s.obase := rfl
@[simp] theorem State.jumpTo_cbase (s : State) (target : Byte) : (s.jumpTo target).cbase = s.cbase := rfl
@[simp] theorem State.jumpTo_ncoef (s : State) (target : Byte) : (s.jumpTo target).ncoef = s.ncoef := rfl
@[simp] theorem State.jumpTo_abase (s : State) (target : Byte) : (s.jumpTo target).abase = s.abase := rfl
@[simp] theorem State.jumpTo_bbase (s : State) (target : Byte) : (s.jumpTo target).bbase = s.bbase := rfl
@[simp] theorem State.jumpTo_lc (s : State) (target : Byte) : (s.jumpTo target).lc = s.lc := rfl
@[simp] theorem State.jumpTo_imem (s : State) (target : Byte) : (s.jumpTo target).imem = s.imem := rfl
@[simp] theorem State.jumpTo_dmem (s : State) (target : Byte) : (s.jumpTo target).dmem = s.dmem := rfl

/-! ## `State.memWrite` -/

@[simp] theorem State.memWrite_regs (s : State) (a : Nat) (v : Byte) : (s.memWrite a v).regs = s.regs := rfl
@[simp] theorem State.memWrite_pc (s : State) (a : Nat) (v : Byte) : (s.memWrite a v).pc = s.pc := rfl
@[simp] theorem State.memWrite_runState (s : State) (a : Nat) (v : Byte) : (s.memWrite a v).runState = s.runState := rfl
@[simp] theorem State.memWrite_cause (s : State) (a : Nat) (v : Byte) : (s.memWrite a v).cause = s.cause := rfl
@[simp] theorem State.memWrite_epc (s : State) (a : Nat) (v : Byte) : (s.memWrite a v).epc = s.epc := rfl
@[simp] theorem State.memWrite_finfo (s : State) (a : Nat) (v : Byte) : (s.memWrite a v).finfo = s.finfo := rfl
@[simp] theorem State.memWrite_entry (s : State) (a : Nat) (v : Byte) : (s.memWrite a v).entry = s.entry := rfl
@[simp] theorem State.memWrite_mlen (s : State) (a : Nat) (v : Byte) : (s.memWrite a v).mlen = s.mlen := rfl
@[simp] theorem State.memWrite_nsh (s : State) (a : Nat) (v : Byte) : (s.memWrite a v).nsh = s.nsh := rfl
@[simp] theorem State.memWrite_sbase (s : State) (a : Nat) (v : Byte) : (s.memWrite a v).sbase = s.sbase := rfl
@[simp] theorem State.memWrite_obase (s : State) (a : Nat) (v : Byte) : (s.memWrite a v).obase = s.obase := rfl
@[simp] theorem State.memWrite_cbase (s : State) (a : Nat) (v : Byte) : (s.memWrite a v).cbase = s.cbase := rfl
@[simp] theorem State.memWrite_ncoef (s : State) (a : Nat) (v : Byte) : (s.memWrite a v).ncoef = s.ncoef := rfl
@[simp] theorem State.memWrite_abase (s : State) (a : Nat) (v : Byte) : (s.memWrite a v).abase = s.abase := rfl
@[simp] theorem State.memWrite_bbase (s : State) (a : Nat) (v : Byte) : (s.memWrite a v).bbase = s.bbase := rfl
@[simp] theorem State.memWrite_lc (s : State) (a : Nat) (v : Byte) : (s.memWrite a v).lc = s.lc := rfl
@[simp] theorem State.memWrite_imem (s : State) (a : Nat) (v : Byte) : (s.memWrite a v).imem = s.imem := rfl
@[simp] theorem State.memWrite_dmem (s : State) (a : Nat) (v : Byte) : (s.memWrite a v).dmem = s.dmem.write (wrapAddr a) v := rfl

/-! ## `State.writeImem` -/

@[simp] theorem State.writeImem_regs (s : State) (i : BitVec 8) (w : Word) : (s.writeImem i w).regs = s.regs := rfl
@[simp] theorem State.writeImem_pc (s : State) (i : BitVec 8) (w : Word) : (s.writeImem i w).pc = s.pc := rfl
@[simp] theorem State.writeImem_runState (s : State) (i : BitVec 8) (w : Word) : (s.writeImem i w).runState = s.runState := rfl
@[simp] theorem State.writeImem_cause (s : State) (i : BitVec 8) (w : Word) : (s.writeImem i w).cause = s.cause := rfl
@[simp] theorem State.writeImem_epc (s : State) (i : BitVec 8) (w : Word) : (s.writeImem i w).epc = s.epc := rfl
@[simp] theorem State.writeImem_finfo (s : State) (i : BitVec 8) (w : Word) : (s.writeImem i w).finfo = s.finfo := rfl
@[simp] theorem State.writeImem_entry (s : State) (i : BitVec 8) (w : Word) : (s.writeImem i w).entry = s.entry := rfl
@[simp] theorem State.writeImem_mlen (s : State) (i : BitVec 8) (w : Word) : (s.writeImem i w).mlen = s.mlen := rfl
@[simp] theorem State.writeImem_nsh (s : State) (i : BitVec 8) (w : Word) : (s.writeImem i w).nsh = s.nsh := rfl
@[simp] theorem State.writeImem_sbase (s : State) (i : BitVec 8) (w : Word) : (s.writeImem i w).sbase = s.sbase := rfl
@[simp] theorem State.writeImem_obase (s : State) (i : BitVec 8) (w : Word) : (s.writeImem i w).obase = s.obase := rfl
@[simp] theorem State.writeImem_cbase (s : State) (i : BitVec 8) (w : Word) : (s.writeImem i w).cbase = s.cbase := rfl
@[simp] theorem State.writeImem_ncoef (s : State) (i : BitVec 8) (w : Word) : (s.writeImem i w).ncoef = s.ncoef := rfl
@[simp] theorem State.writeImem_abase (s : State) (i : BitVec 8) (w : Word) : (s.writeImem i w).abase = s.abase := rfl
@[simp] theorem State.writeImem_bbase (s : State) (i : BitVec 8) (w : Word) : (s.writeImem i w).bbase = s.bbase := rfl
@[simp] theorem State.writeImem_lc (s : State) (i : BitVec 8) (w : Word) : (s.writeImem i w).lc = s.lc := rfl
@[simp] theorem State.writeImem_imem (s : State) (i : BitVec 8) (w : Word) : (s.writeImem i w).imem = s.imem.set i.toNat w i.isLt := rfl
@[simp] theorem State.writeImem_dmem (s : State) (i : BitVec 8) (w : Word) : (s.writeImem i w).dmem = s.dmem := rfl

/-! ## `State.raise` -/

@[simp] theorem State.raise_regs (s : State) (c : Cause) (info : Half) : (s.raise c info).regs = s.regs := rfl
@[simp] theorem State.raise_pc (s : State) (c : Cause) (info : Half) : (s.raise c info).pc = s.pc := rfl
@[simp] theorem State.raise_runState (s : State) (c : Cause) (info : Half) : (s.raise c info).runState = .faulted := rfl
@[simp] theorem State.raise_cause (s : State) (c : Cause) (info : Half) : (s.raise c info).cause = c.code := rfl
@[simp] theorem State.raise_epc (s : State) (c : Cause) (info : Half) : (s.raise c info).epc = s.pc := rfl
@[simp] theorem State.raise_finfo (s : State) (c : Cause) (info : Half) : (s.raise c info).finfo = info := rfl
@[simp] theorem State.raise_entry (s : State) (c : Cause) (info : Half) : (s.raise c info).entry = s.entry := rfl
@[simp] theorem State.raise_mlen (s : State) (c : Cause) (info : Half) : (s.raise c info).mlen = s.mlen := rfl
@[simp] theorem State.raise_nsh (s : State) (c : Cause) (info : Half) : (s.raise c info).nsh = s.nsh := rfl
@[simp] theorem State.raise_sbase (s : State) (c : Cause) (info : Half) : (s.raise c info).sbase = s.sbase := rfl
@[simp] theorem State.raise_obase (s : State) (c : Cause) (info : Half) : (s.raise c info).obase = s.obase := rfl
@[simp] theorem State.raise_cbase (s : State) (c : Cause) (info : Half) : (s.raise c info).cbase = s.cbase := rfl
@[simp] theorem State.raise_ncoef (s : State) (c : Cause) (info : Half) : (s.raise c info).ncoef = s.ncoef := rfl
@[simp] theorem State.raise_abase (s : State) (c : Cause) (info : Half) : (s.raise c info).abase = s.abase := rfl
@[simp] theorem State.raise_bbase (s : State) (c : Cause) (info : Half) : (s.raise c info).bbase = s.bbase := rfl
@[simp] theorem State.raise_lc (s : State) (c : Cause) (info : Half) : (s.raise c info).lc = s.lc := rfl
@[simp] theorem State.raise_imem (s : State) (c : Cause) (info : Half) : (s.raise c info).imem = s.imem := rfl
@[simp] theorem State.raise_dmem (s : State) (c : Cause) (info : Half) : (s.raise c info).dmem = s.dmem := rfl

/-! ## `State.halt` -/

@[simp] theorem State.halt_regs (s : State) : s.halt.regs = s.regs := rfl
@[simp] theorem State.halt_pc (s : State) : s.halt.pc = s.pc := rfl
@[simp] theorem State.halt_runState (s : State) : s.halt.runState = .halted := rfl
@[simp] theorem State.halt_cause (s : State) : s.halt.cause = s.cause := rfl
@[simp] theorem State.halt_epc (s : State) : s.halt.epc = s.epc := rfl
@[simp] theorem State.halt_finfo (s : State) : s.halt.finfo = s.finfo := rfl
@[simp] theorem State.halt_entry (s : State) : s.halt.entry = s.entry := rfl
@[simp] theorem State.halt_mlen (s : State) : s.halt.mlen = s.mlen := rfl
@[simp] theorem State.halt_nsh (s : State) : s.halt.nsh = s.nsh := rfl
@[simp] theorem State.halt_sbase (s : State) : s.halt.sbase = s.sbase := rfl
@[simp] theorem State.halt_obase (s : State) : s.halt.obase = s.obase := rfl
@[simp] theorem State.halt_cbase (s : State) : s.halt.cbase = s.cbase := rfl
@[simp] theorem State.halt_ncoef (s : State) : s.halt.ncoef = s.ncoef := rfl
@[simp] theorem State.halt_abase (s : State) : s.halt.abase = s.abase := rfl
@[simp] theorem State.halt_bbase (s : State) : s.halt.bbase = s.bbase := rfl
@[simp] theorem State.halt_lc (s : State) : s.halt.lc = s.lc := rfl
@[simp] theorem State.halt_imem (s : State) : s.halt.imem = s.imem := rfl
@[simp] theorem State.halt_dmem (s : State) : s.halt.dmem = s.dmem := rfl

/-! ## `State.hostStart` -/

@[simp] theorem State.hostStart_regs (s : State) : s.hostStart.regs = s.regs := rfl
@[simp] theorem State.hostStart_pc (s : State) : s.hostStart.pc = s.entry := rfl
@[simp] theorem State.hostStart_runState (s : State) : s.hostStart.runState = .run := rfl
@[simp] theorem State.hostStart_cause (s : State) : s.hostStart.cause = s.cause := rfl
@[simp] theorem State.hostStart_epc (s : State) : s.hostStart.epc = s.epc := rfl
@[simp] theorem State.hostStart_finfo (s : State) : s.hostStart.finfo = s.finfo := rfl
@[simp] theorem State.hostStart_entry (s : State) : s.hostStart.entry = s.entry := rfl
@[simp] theorem State.hostStart_mlen (s : State) : s.hostStart.mlen = s.mlen := rfl
@[simp] theorem State.hostStart_nsh (s : State) : s.hostStart.nsh = s.nsh := rfl
@[simp] theorem State.hostStart_sbase (s : State) : s.hostStart.sbase = s.sbase := rfl
@[simp] theorem State.hostStart_obase (s : State) : s.hostStart.obase = s.obase := rfl
@[simp] theorem State.hostStart_cbase (s : State) : s.hostStart.cbase = s.cbase := rfl
@[simp] theorem State.hostStart_ncoef (s : State) : s.hostStart.ncoef = s.ncoef := rfl
@[simp] theorem State.hostStart_abase (s : State) : s.hostStart.abase = s.abase := rfl
@[simp] theorem State.hostStart_bbase (s : State) : s.hostStart.bbase = s.bbase := rfl
@[simp] theorem State.hostStart_lc (s : State) : s.hostStart.lc = s.lc := rfl
@[simp] theorem State.hostStart_imem (s : State) : s.hostStart.imem = s.imem := rfl
@[simp] theorem State.hostStart_dmem (s : State) : s.hostStart.dmem = s.dmem := rfl

/-! ## `State.hostReset` -/

@[simp] theorem State.hostReset_regs (s : State) : s.hostReset.regs = State.reset.regs := rfl
@[simp] theorem State.hostReset_pc (s : State) : s.hostReset.pc = State.reset.pc := rfl
@[simp] theorem State.hostReset_runState (s : State) : s.hostReset.runState = State.reset.runState := rfl
@[simp] theorem State.hostReset_cause (s : State) : s.hostReset.cause = State.reset.cause := rfl
@[simp] theorem State.hostReset_epc (s : State) : s.hostReset.epc = State.reset.epc := rfl
@[simp] theorem State.hostReset_finfo (s : State) : s.hostReset.finfo = State.reset.finfo := rfl
@[simp] theorem State.hostReset_entry (s : State) : s.hostReset.entry = State.reset.entry := rfl
@[simp] theorem State.hostReset_mlen (s : State) : s.hostReset.mlen = State.reset.mlen := rfl
@[simp] theorem State.hostReset_nsh (s : State) : s.hostReset.nsh = State.reset.nsh := rfl
@[simp] theorem State.hostReset_sbase (s : State) : s.hostReset.sbase = State.reset.sbase := rfl
@[simp] theorem State.hostReset_obase (s : State) : s.hostReset.obase = State.reset.obase := rfl
@[simp] theorem State.hostReset_cbase (s : State) : s.hostReset.cbase = State.reset.cbase := rfl
@[simp] theorem State.hostReset_ncoef (s : State) : s.hostReset.ncoef = State.reset.ncoef := rfl
@[simp] theorem State.hostReset_abase (s : State) : s.hostReset.abase = State.reset.abase := rfl
@[simp] theorem State.hostReset_bbase (s : State) : s.hostReset.bbase = State.reset.bbase := rfl
@[simp] theorem State.hostReset_lc (s : State) : s.hostReset.lc = State.reset.lc := rfl
@[simp] theorem State.hostReset_imem (s : State) : s.hostReset.imem = s.imem := rfl
@[simp] theorem State.hostReset_dmem (s : State) : s.hostReset.dmem = State.reset.dmem := rfl

/-! ## `State.writeCsr`: it never touches the other state, and writes the one register -/

@[simp] theorem State.writeCsr_regs (s : State) (c : Csr) (v : Half) : (s.writeCsr c v).regs = s.regs := by cases c <;> rfl
@[simp] theorem State.writeCsr_pc (s : State) (c : Csr) (v : Half) : (s.writeCsr c v).pc = s.pc := by cases c <;> rfl
@[simp] theorem State.writeCsr_runState (s : State) (c : Csr) (v : Half) : (s.writeCsr c v).runState = s.runState := by cases c <;> rfl
@[simp] theorem State.writeCsr_cause (s : State) (c : Csr) (v : Half) : (s.writeCsr c v).cause = s.cause := by cases c <;> rfl
@[simp] theorem State.writeCsr_epc (s : State) (c : Csr) (v : Half) : (s.writeCsr c v).epc = s.epc := by cases c <;> rfl
@[simp] theorem State.writeCsr_finfo (s : State) (c : Csr) (v : Half) : (s.writeCsr c v).finfo = s.finfo := by cases c <;> rfl
@[simp] theorem State.writeCsr_imem (s : State) (c : Csr) (v : Half) : (s.writeCsr c v).imem = s.imem := by cases c <;> rfl
@[simp] theorem State.writeCsr_dmem (s : State) (c : Csr) (v : Half) : (s.writeCsr c v).dmem = s.dmem := by cases c <;> rfl
@[simp] theorem State.writeCsr_entry_self (s : State) (v : Half) : (s.writeCsr .entry v).entry = v.setWidth 8 := rfl
@[simp] theorem State.writeCsr_mlen_self (s : State) (v : Half) : (s.writeCsr .mlen v).mlen = v.setWidth 8 := rfl
@[simp] theorem State.writeCsr_nsh_self (s : State) (v : Half) : (s.writeCsr .nsh v).nsh = v.setWidth 8 := rfl
@[simp] theorem State.writeCsr_sbase_self (s : State) (v : Half) : (s.writeCsr .sbase v).sbase = v := rfl
@[simp] theorem State.writeCsr_obase_self (s : State) (v : Half) : (s.writeCsr .obase v).obase = v := rfl
@[simp] theorem State.writeCsr_cbase_self (s : State) (v : Half) : (s.writeCsr .cbase v).cbase = v := rfl
@[simp] theorem State.writeCsr_ncoef_self (s : State) (v : Half) : (s.writeCsr .ncoef v).ncoef = v.setWidth 8 := rfl
@[simp] theorem State.writeCsr_abase_self (s : State) (v : Half) : (s.writeCsr .abase v).abase = v := rfl
@[simp] theorem State.writeCsr_bbase_self (s : State) (v : Half) : (s.writeCsr .bbase v).bbase = v := rfl
@[simp] theorem State.writeCsr_lc_self (s : State) (v : Half) : (s.writeCsr .lc v).lc = v.setWidth 8 := rfl
theorem State.writeCsr_entry_of_ne (s : State) (c : Csr) (v : Half) (h : c ≠ .entry) : (s.writeCsr c v).entry = s.entry := by
  cases c <;> first | rfl | exact absurd rfl h
theorem State.writeCsr_mlen_of_ne (s : State) (c : Csr) (v : Half) (h : c ≠ .mlen) : (s.writeCsr c v).mlen = s.mlen := by
  cases c <;> first | rfl | exact absurd rfl h
theorem State.writeCsr_nsh_of_ne (s : State) (c : Csr) (v : Half) (h : c ≠ .nsh) : (s.writeCsr c v).nsh = s.nsh := by
  cases c <;> first | rfl | exact absurd rfl h
theorem State.writeCsr_sbase_of_ne (s : State) (c : Csr) (v : Half) (h : c ≠ .sbase) : (s.writeCsr c v).sbase = s.sbase := by
  cases c <;> first | rfl | exact absurd rfl h
theorem State.writeCsr_obase_of_ne (s : State) (c : Csr) (v : Half) (h : c ≠ .obase) : (s.writeCsr c v).obase = s.obase := by
  cases c <;> first | rfl | exact absurd rfl h
theorem State.writeCsr_cbase_of_ne (s : State) (c : Csr) (v : Half) (h : c ≠ .cbase) : (s.writeCsr c v).cbase = s.cbase := by
  cases c <;> first | rfl | exact absurd rfl h
theorem State.writeCsr_ncoef_of_ne (s : State) (c : Csr) (v : Half) (h : c ≠ .ncoef) : (s.writeCsr c v).ncoef = s.ncoef := by
  cases c <;> first | rfl | exact absurd rfl h
theorem State.writeCsr_abase_of_ne (s : State) (c : Csr) (v : Half) (h : c ≠ .abase) : (s.writeCsr c v).abase = s.abase := by
  cases c <;> first | rfl | exact absurd rfl h
theorem State.writeCsr_bbase_of_ne (s : State) (c : Csr) (v : Half) (h : c ≠ .bbase) : (s.writeCsr c v).bbase = s.bbase := by
  cases c <;> first | rfl | exact absurd rfl h
theorem State.writeCsr_lc_of_ne (s : State) (c : Csr) (v : Half) (h : c ≠ .lc) : (s.writeCsr c v).lc = s.lc := by
  cases c <;> first | rfl | exact absurd rfl h

/-! ## `State.memWriteBytes`: only data memory -/

@[simp] theorem State.memWriteBytes_regs (vs : List Byte) : ∀ (s : State) (a : Nat), (s.memWriteBytes a vs).regs = s.regs := by
  induction vs with
  | nil => intro s a; rfl
  | cons v vs ih => intro s a; exact (ih _ _).trans rfl
@[simp] theorem State.memWriteBytes_pc (vs : List Byte) : ∀ (s : State) (a : Nat), (s.memWriteBytes a vs).pc = s.pc := by
  induction vs with
  | nil => intro s a; rfl
  | cons v vs ih => intro s a; exact (ih _ _).trans rfl
@[simp] theorem State.memWriteBytes_runState (vs : List Byte) : ∀ (s : State) (a : Nat), (s.memWriteBytes a vs).runState = s.runState := by
  induction vs with
  | nil => intro s a; rfl
  | cons v vs ih => intro s a; exact (ih _ _).trans rfl
@[simp] theorem State.memWriteBytes_cause (vs : List Byte) : ∀ (s : State) (a : Nat), (s.memWriteBytes a vs).cause = s.cause := by
  induction vs with
  | nil => intro s a; rfl
  | cons v vs ih => intro s a; exact (ih _ _).trans rfl
@[simp] theorem State.memWriteBytes_epc (vs : List Byte) : ∀ (s : State) (a : Nat), (s.memWriteBytes a vs).epc = s.epc := by
  induction vs with
  | nil => intro s a; rfl
  | cons v vs ih => intro s a; exact (ih _ _).trans rfl
@[simp] theorem State.memWriteBytes_finfo (vs : List Byte) : ∀ (s : State) (a : Nat), (s.memWriteBytes a vs).finfo = s.finfo := by
  induction vs with
  | nil => intro s a; rfl
  | cons v vs ih => intro s a; exact (ih _ _).trans rfl
@[simp] theorem State.memWriteBytes_entry (vs : List Byte) : ∀ (s : State) (a : Nat), (s.memWriteBytes a vs).entry = s.entry := by
  induction vs with
  | nil => intro s a; rfl
  | cons v vs ih => intro s a; exact (ih _ _).trans rfl
@[simp] theorem State.memWriteBytes_mlen (vs : List Byte) : ∀ (s : State) (a : Nat), (s.memWriteBytes a vs).mlen = s.mlen := by
  induction vs with
  | nil => intro s a; rfl
  | cons v vs ih => intro s a; exact (ih _ _).trans rfl
@[simp] theorem State.memWriteBytes_nsh (vs : List Byte) : ∀ (s : State) (a : Nat), (s.memWriteBytes a vs).nsh = s.nsh := by
  induction vs with
  | nil => intro s a; rfl
  | cons v vs ih => intro s a; exact (ih _ _).trans rfl
@[simp] theorem State.memWriteBytes_sbase (vs : List Byte) : ∀ (s : State) (a : Nat), (s.memWriteBytes a vs).sbase = s.sbase := by
  induction vs with
  | nil => intro s a; rfl
  | cons v vs ih => intro s a; exact (ih _ _).trans rfl
@[simp] theorem State.memWriteBytes_obase (vs : List Byte) : ∀ (s : State) (a : Nat), (s.memWriteBytes a vs).obase = s.obase := by
  induction vs with
  | nil => intro s a; rfl
  | cons v vs ih => intro s a; exact (ih _ _).trans rfl
@[simp] theorem State.memWriteBytes_cbase (vs : List Byte) : ∀ (s : State) (a : Nat), (s.memWriteBytes a vs).cbase = s.cbase := by
  induction vs with
  | nil => intro s a; rfl
  | cons v vs ih => intro s a; exact (ih _ _).trans rfl
@[simp] theorem State.memWriteBytes_ncoef (vs : List Byte) : ∀ (s : State) (a : Nat), (s.memWriteBytes a vs).ncoef = s.ncoef := by
  induction vs with
  | nil => intro s a; rfl
  | cons v vs ih => intro s a; exact (ih _ _).trans rfl
@[simp] theorem State.memWriteBytes_abase (vs : List Byte) : ∀ (s : State) (a : Nat), (s.memWriteBytes a vs).abase = s.abase := by
  induction vs with
  | nil => intro s a; rfl
  | cons v vs ih => intro s a; exact (ih _ _).trans rfl
@[simp] theorem State.memWriteBytes_bbase (vs : List Byte) : ∀ (s : State) (a : Nat), (s.memWriteBytes a vs).bbase = s.bbase := by
  induction vs with
  | nil => intro s a; rfl
  | cons v vs ih => intro s a; exact (ih _ _).trans rfl
@[simp] theorem State.memWriteBytes_lc (vs : List Byte) : ∀ (s : State) (a : Nat), (s.memWriteBytes a vs).lc = s.lc := by
  induction vs with
  | nil => intro s a; rfl
  | cons v vs ih => intro s a; exact (ih _ _).trans rfl
@[simp] theorem State.memWriteBytes_imem (vs : List Byte) : ∀ (s : State) (a : Nat), (s.memWriteBytes a vs).imem = s.imem := by
  induction vs with
  | nil => intro s a; rfl
  | cons v vs ih => intro s a; exact (ih _ _).trans rfl

end Sys2Proof.Machine
end

