-- ==== Sys2Proof/Laws/Ops.lean ====
section
/-! SUPPORT. What the shared operations do, said through the model's reads, and what each way an instruction can end does in full. -/

namespace Sys2Proof.Machine

/-! ## General registers -/

theorem State.readReg_writeReg (s : State) (rd r : RegNum) (v : Byte) :
    (s.writeReg rd v).readReg r = if r = rd then v else s.readReg r := by
  simp only [State.readReg, State.writeReg_regs, Vector.getElem_set]
  by_cases h : r = rd
  · simp [h]
  · rw [if_neg (fun h' => h (BitVec.eq_of_toNat_eq h'.symm)), if_neg h]

theorem State.readReg_congr (s t : State) (h : t.regs = s.regs) (r : RegNum) : t.readReg r = s.readReg r := by
  simp only [State.readReg, h]

@[simp] theorem State.readReg_nextPc (s : State) (r : RegNum) : s.nextPc.readReg r = s.readReg r := rfl
@[simp] theorem State.readReg_jumpTo (s : State) (t : Byte) (r : RegNum) : (s.jumpTo t).readReg r = s.readReg r := rfl
@[simp] theorem State.readReg_halt (s : State) (r : RegNum) : s.halt.readReg r = s.readReg r := rfl
@[simp] theorem State.readReg_raise (s : State) (c : Cause) (i : Half) (r : RegNum) : (s.raise c i).readReg r = s.readReg r := rfl
@[simp] theorem State.readReg_memWrite (s : State) (a : Nat) (v : Byte) (r : RegNum) : (s.memWrite a v).readReg r = s.readReg r := rfl
@[simp] theorem State.readReg_writeCsr (s : State) (c : Csr) (v : Half) (r : RegNum) : (s.writeCsr c v).readReg r = s.readReg r :=
  State.readReg_congr _ _ (by simp) r
@[simp] theorem State.readReg_memWriteBytes (s : State) (a : Nat) (vs : List Byte) (r : RegNum) :
    (s.memWriteBytes a vs).readReg r = s.readReg r := State.readReg_congr _ _ (by simp) r
@[simp] theorem State.readReg_reset (r : RegNum) : State.reset.readReg r = 0 := by simp [State.readReg, State.reset]

/-! ## Control registers -/

/-- `csr[c] <- v` and then `csr[c']`: the register written holds the bits it has, the read-only ones hold what they held. -/
theorem State.readCsr_writeCsr (s : State) (c c' : Csr) (v : Half) :
    (s.writeCsr c v).readCsr c' =
      if c' = c ∧ c.writable = true then (if csrWide c then v else (v.setWidth 8).setWidth 16) else s.readCsr c' := by
  cases c <;> cases c' <;> rfl

/-- A value that fits the register is read back whole (10_state.md R29, R43). -/
theorem State.readCsr_writeCsr_self (s : State) (c : Csr) (v : Half) (hc : c.writable = true) (hv : csrFits c v = true) :
    (s.writeCsr c v).readCsr c = v := by
  rw [State.readCsr_writeCsr, if_pos ⟨rfl, hc⟩]
  split
  · rfl
  · rename_i hw
    have h8 : v.extractLsb' 8 8 = 0#8 := by simpa [csrFits, hw] using hv
    apply BitVec.eq_of_getLsbD_eq
    intro i hi
    by_cases hi8 : i < 8
    · simp [hi8, hi]
    · have := congrArg (fun w => w.getLsbD (i - 8)) h8
      simp only [BitVec.getLsbD_extractLsb', BitVec.getLsbD_zero, show i - 8 < 8 by omega, show 8 + (i - 8) = i by omega] at this
      simpa [hi8] using this.symm

@[simp] theorem State.readCsr_writeReg (s : State) (r : RegNum) (v : Byte) (c : Csr) : (s.writeReg r v).readCsr c = s.readCsr c := by
  cases c <;> rfl
@[simp] theorem State.readCsr_nextPc (s : State) (c : Csr) : s.nextPc.readCsr c = s.readCsr c := by cases c <;> rfl
@[simp] theorem State.readCsr_jumpTo (s : State) (t : Byte) (c : Csr) : (s.jumpTo t).readCsr c = s.readCsr c := by cases c <;> rfl
@[simp] theorem State.readCsr_memWrite (s : State) (a : Nat) (v : Byte) (c : Csr) : (s.memWrite a v).readCsr c = s.readCsr c := by
  cases c <;> rfl
@[simp] theorem State.readCsr_memWriteBytes (s : State) (a : Nat) (vs : List Byte) (c : Csr) :
    (s.memWriteBytes a vs).readCsr c = s.readCsr c := by cases c <;> simp [State.readCsr]
theorem State.readCsr_halt (s : State) (c : Csr) : s.halt.readCsr c = if c = .status then 2 else s.readCsr c := by cases c <;> rfl
theorem State.readCsr_raise (s : State) (k : Cause) (i : Half) (c : Csr) (hc : c ∉ [Csr.status, .cause, .epc, .finfo]) :
    (s.raise k i).readCsr c = s.readCsr c := by
  cases c <;> first | rfl | simp at hc

/-- The byte `STATUS` reads as is `0x01` exactly in `RUN` (10_state.md R30). -/
theorem RunState.status_inj (a b : RunState) (h : a.status = b.status) : a = b := by
  cases a <;> cases b <;> first | rfl | exact absurd h (by decide)

/-! ## Memories under operations that do not write them -/

theorem State.memRead_of_dmem_eq (s t : State) (h : t.dmem = s.dmem) (a : Nat) : t.memRead a = s.memRead a := by
  simp only [State.memRead, h]

theorem State.readImem_congr (s t : State) (h : t.imem = s.imem) (i : BitVec 8) : t.readImem i = s.readImem i := by
  simp only [State.readImem, h]

theorem State.readImem_writeImem (s : State) (i j : BitVec 8) (w : Word) :
    (s.writeImem i w).readImem j = if j = i then w else s.readImem j := by
  simp only [State.readImem, State.writeImem_imem, Vector.getElem_set]
  by_cases h : j = i
  · simp [h]
  · rw [if_neg (fun h' => h (BitVec.eq_of_toNat_eq h'.symm)), if_neg h]

/-! ## How an instruction ends -/

/-- All that `State.finishReg` does. -/
theorem State.finishReg_spec (s : State) (rd : RegNum) (v : Byte) : ∃ t, s.finishReg rd v = .next t ∧ WritesReg s t rd v := by
  refine ⟨_, rfl, by simp [State.readReg_writeReg], rfl, fun r hr => ?_, fun c => by simp, fun i => rfl, fun a => rfl⟩
  simp [State.readReg_writeReg, hr]

/-- All that storing bytes and going on does. -/
theorem State.storeBytes_spec (s : State) (a : Nat) (vs : List Byte) (h : vs.length ≤ Config.dmemBytes) :
    WritesBytes s (s.memWriteBytes a vs).nextPc a vs := by
  refine ⟨fun j hj => State.memRead_memWriteBytes vs s a j h hj, by simp, fun b hb => ?_, fun r => by simp, fun c => by simp, fun i => ?_⟩
  · exact State.memRead_memWriteBytes_of_ne vs s a b hb
  · exact State.readImem_congr _ _ (by simp) i

/-- All that storing one byte and going on does. -/
theorem State.storeByte_spec (s : State) (a : Nat) (v : Byte) : WritesBytes s (s.memWrite a v).nextPc a [v] :=
  State.storeBytes_spec s a [v] (by simp [Config.dmemBytes])

/-- All that a fault does (60_exceptions.md R246). -/
theorem State.fail_spec (s : State) (c : Cause) (info : Half) : ∃ t, s.fail c info = .next t ∧ Faults s t c.code info :=
  ⟨_, rfl, rfl, rfl, rfl, rfl, rfl, fun _ => rfl, fun c' hc => State.readCsr_raise s c info c' hc, fun _ => rfl, fun _ => rfl⟩

/-! ## The checks on a share array (42_interpolate.md R151) -/

theorem firstZero_none (xs : List Byte) : firstZero xs = none ↔ 0#8 ∉ xs := by
  rw [firstZero, List.findIdx?_eq_none_iff]
  constructor
  · intro h h0
    simpa using h 0 h0
  · intro h x hx
    simp only [beq_eq_false_iff_ne]
    exact fun h0 => h ((show x = 0#8 from h0) ▸ hx)

theorem firstDuplicate_none (xs : List Byte) : ∀ i, firstDuplicate i xs = none ↔ xs.Nodup := by
  induction xs with
  | nil => intro i; simp [firstDuplicate]
  | cons x xs ih =>
    intro i
    rw [firstDuplicate, List.nodup_cons]
    cases h : xs.findIdx? (· == x) with
    | some d =>
      have hx : x ∈ xs := by
        obtain ⟨hd, hdx, -⟩ := List.findIdx?_eq_some_iff_getElem.mp h
        exact (by simpa using hdx : xs[d] = x) ▸ List.getElem_mem hd
      simp [hx]
    | none =>
      have hx : x ∉ xs := fun hx => by
        have := List.findIdx?_eq_none_iff.mp h x hx
        simp at this
      simp [hx, ih]

/-- The index checks pass exactly when every index byte is nonzero and no two are equal. -/
theorem checkIndices_none (xs : List Byte) : checkIndices xs = none ↔ 0#8 ∉ xs ∧ xs.Nodup := by
  rw [checkIndices, ← firstZero_none, ← firstDuplicate_none xs 0]
  cases firstZero xs with
  | some i => simp
  | none => cases firstDuplicate 0 xs <;> simp

@[simp] theorem State.length_shareXs (s : State) : s.shareXs.length = s.nsh.toNat := by simp [State.shareXs]

@[simp] theorem State.length_shareYs (s : State) (p : Nat) : (s.shareYs p).length = s.nsh.toNat := by simp [State.shareYs]

@[simp] theorem State.length_coefficients (s : State) : s.coefficients.length = s.ncoef.toNat := by
  simp [State.coefficients, State.memReadBytes]

@[simp] theorem State.length_combineOut (s : State) : s.combineOut.length = s.mlen.toNat := by simp [State.combineOut]

end Sys2Proof.Machine
end

