-- ==== Sys2Proof/Laws/Operands.lean ====
section
/-! SUPPORT. The index checks on a share array (42_interpolate.md R151) and the faults of LINTERP and COMBINE, said once. -/

namespace Sys2Proof.Machine

/-- `FINFO` of a duplicate as a number. -/
theorem pairInfo_eq (i j : Nat) (hi : i < 256) (hj : j < 256) : pairInfo i j = BitVec.ofNat 16 (256 * i + j) := by
  apply BitVec.eq_of_toNat_eq
  have h : 256 * i + j = (i <<< 8) ||| j := by
    rw [← Nat.shiftLeft_add_eq_or_of_lt (by omega), Nat.shiftLeft_eq]; omega
  have hs : i <<< 8 < 65536 := by rw [Nat.shiftLeft_eq]; omega
  rw [pairInfo, BitVec.toNat_or, BitVec.toNat_shiftLeft, BitVec.toNat_ofNat, BitVec.toNat_ofNat, BitVec.toNat_ofNat, Nat.mod_eq_of_lt (by omega : i < 2 ^ 16),
    Nat.mod_eq_of_lt (by omega : j < 2 ^ 16), Nat.mod_eq_of_lt hs, Nat.mod_eq_of_lt (by omega), h]

/-- A pair of share positions is a legal `FINFO` of `DuplicateShareIndex`. -/
theorem pairInfo_legal (i j : Nat) (h : i < j) (hj : j < 255) : faultInfoLegal 2 (pairInfo i j) = true := by
  rw [pairInfo_eq i j (by omega) (by omega)]
  simp [faultInfoLegal, BitVec.lt_def, Nat.shiftRight_eq_div_pow]
  omega

/-- What the zero check finds. -/
theorem firstZero_some (xs : List Byte) (i : Nat) :
    firstZero xs = some i ↔ i < xs.length ∧ xs.getD i 0 = 0 ∧ ∀ i' < i, xs.getD i' 0 ≠ 0 := by
  rw [firstZero, List.findIdx?_eq_some_iff_getElem]
  constructor
  · rintro ⟨h, h0, hl⟩
    refine ⟨h, by simpa [h] using h0, fun i' hi' => ?_⟩
    simpa [show i' < xs.length by omega] using hl i' hi'
  · rintro ⟨h, h0, hl⟩
    refine ⟨h, by simpa [h] using h0, fun i' hi' => ?_⟩
    simpa [show i' < xs.length by omega] using hl i' hi'

/-- What the duplicate check finds: the first pair in dictionary order. -/
theorem firstDuplicate_some (xs : List Byte) : ∀ k i j, firstDuplicate k xs = some (i, j) →
    ∃ a b, i = k + a ∧ j = k + b ∧ a < b ∧ b < xs.length ∧ xs.getD a 0 = xs.getD b 0 ∧
      ∀ a' b', a' < b' → b' < xs.length → xs.getD a' 0 = xs.getD b' 0 → a < a' ∨ (a = a' ∧ b ≤ b') := by
  induction xs with
  | nil => intro k i j h; simp [firstDuplicate] at h
  | cons x xs ih =>
    intro k i j h
    rw [firstDuplicate] at h
    split at h
    · rename_i d hd
      obtain ⟨hl, hx, hm⟩ := List.findIdx?_eq_some_iff_getElem.mp hd
      simp only [Option.some.injEq, Prod.mk.injEq] at h
      obtain ⟨rfl, rfl⟩ := h
      refine ⟨0, d + 1, rfl, by omega, by omega, by simpa using hl, ?_, ?_⟩
      · have hx' : xs[d] = x := by simpa using hx
        simp [hl, hx']
      · intro a' b' hab hb he
        rcases Nat.eq_zero_or_pos a' with rfl | ha
        · refine .inr ⟨rfl, ?_⟩
          by_contra hlt
          obtain ⟨b'', rfl⟩ : ∃ b'', b' = b'' + 1 := ⟨b' - 1, by omega⟩
          simp only [List.length_cons] at hb
          have := hm b'' (by omega)
          simp [show b'' < xs.length by omega] at he
          simp [he] at this
        · exact .inl ha
    · rename_i hd
      obtain ⟨a, b, rfl, rfl, hab, hb, he, hm⟩ := ih _ _ _ h
      refine ⟨a + 1, b + 1, by omega, by omega, by omega, by simpa using hb, by simpa using he, ?_⟩
      intro a' b' hab' hb' he'
      simp only [List.length_cons] at hb'
      obtain ⟨b'', rfl⟩ : ∃ b'', b' = b'' + 1 := ⟨b' - 1, by omega⟩
      rcases Nat.eq_zero_or_pos a' with rfl | ha
      · exfalso
        rw [List.findIdx?_eq_none_iff] at hd
        simp [show b'' < xs.length by omega] at he'
        have := hd _ (List.getElem_mem (show b'' < xs.length by omega))
        simp [he'] at this
      · obtain ⟨a'', rfl⟩ : ∃ a'', a' = a'' + 1 := ⟨a' - 1, by omega⟩
        have := hm a'' b'' (by omega) (by omega) (by simpa using he')
        omega

theorem State.getD_shareXs (s : State) (i : Nat) (h : i < s.nsh.toNat) : s.shareXs.getD i 0 = s.shareX i := by
  simp [State.shareXs, h]

/-- The check on a share array whose first `0x00` index is at position `i`. -/
theorem State.checkIndices_of_firstZeroAt (s : State) (i : Nat) (h : FirstZeroAt s s.nsh.toNat i) :
    checkIndices s.shareXs = some (.zeroShareIndex, BitVec.ofNat 16 i) := by
  obtain ⟨hi, h0, hm⟩ := h
  have hz : firstZero s.shareXs = some i := by
    refine (firstZero_some _ _).mpr ⟨by simpa using hi, by rw [State.getD_shareXs s i hi, h0], fun i' hi' => ?_⟩
    rw [State.getD_shareXs s i' (by omega)]
    exact hm i' hi'
  simp [checkIndices, hz]

theorem State.firstZero_of_nonzero (s : State) (h : ∀ k < s.nsh.toNat, s.shareX k ≠ 0) : firstZero s.shareXs = none := by
  rw [firstZero_none]
  simp only [State.shareXs, List.mem_map, List.mem_range, not_exists, not_and]
  exact h

/-- The check on a share array without `0x00` index whose first duplicate is at positions `i`, `j`. -/
theorem State.checkIndices_of_firstDuplicateAt (s : State) (i j : Nat) (h : FirstDuplicateAt s s.nsh.toNat i j) :
    checkIndices s.shareXs = some (.duplicateShareIndex, BitVec.ofNat 16 (256 * i + j)) := by
  obtain ⟨hz, hij, hj, he, hm⟩ := h
  have hn := s.nsh.isLt
  have hd : firstDuplicate 0 s.shareXs = some (i, j) := by
    cases hd : firstDuplicate 0 s.shareXs with
    | none =>
      rw [firstDuplicate_none, List.nodup_iff_injective_get] at hd
      have := @hd ⟨i, by simp; omega⟩ ⟨j, by simpa using hj⟩ (by simpa [State.shareXs] using he)
      simp at this
      omega
    | some ab =>
      obtain ⟨a, b, ha, hb, hab, hbl, hab', hm'⟩ := firstDuplicate_some _ _ ab.1 ab.2 hd
      rw [State.length_shareXs] at hbl hm'
      rw [State.getD_shareXs s a (by omega), State.getD_shareXs s b hbl] at hab'
      have h1 := hm a b hab hbl hab'
      have h2 := hm' i j hij hj (by rw [State.getD_shareXs s i (by omega), State.getD_shareXs s j hj, he])
      have : ab = (i, j) := Prod.ext (by simp only; omega) (by simp only; omega)
      rw [this]
  simp [checkIndices, State.firstZero_of_nonzero s hz, hd, pairInfo_eq i j (by omega) (by omega)]

/-- The check passes exactly the share arrays whose indices are nonzero and different. -/
theorem State.checkIndices_of_indicesGood (s : State) (h : IndicesGood s s.nsh.toNat) : checkIndices s.shareXs = none := by
  refine (checkIndices_none _).mpr ⟨(firstZero_none _).mp (s.firstZero_of_nonzero h.1), ?_⟩
  rw [List.nodup_iff_injective_get]
  intro a b hab
  have ha : a < s.nsh.toNat := lt_of_lt_of_eq a.isLt s.length_shareXs
  have hb : b < s.nsh.toNat := lt_of_lt_of_eq b.isLt s.length_shareXs
  have hab' : s.shareX a = s.shareX b := by
    rw [List.get_eq_getElem, List.get_eq_getElem] at hab
    simpa [State.shareXs] using hab
  rcases Nat.lt_trichotomy a b with hlt | heq | hlt
  · exact absurd hab' (h.2 a b hlt hb)
  · exact Fin.ext heq
  · exact absurd hab'.symm (h.2 b a hlt ha)

/-- A fault of the index check is a legal report. -/
theorem checkIndices_legal (xs : List Byte) (hl : xs.length ≤ 255) (c : Cause) (info : Half) (h : checkIndices xs = some (c, info)) :
    faultInfoLegal c.code info = true ∧ (c = .zeroShareIndex ∨ c = .duplicateShareIndex) := by
  rw [checkIndices] at h
  split at h
  · rename_i i hi
    have := ((firstZero_some _ _).mp hi).1
    simp only [Option.some.injEq, Prod.mk.injEq] at h
    obtain ⟨rfl, rfl⟩ := h
    refine ⟨?_, .inl rfl⟩
    simp [faultInfoLegal, Cause.code, BitVec.lt_def]
    omega
  · split at h
    · rename_i i j hij
      obtain ⟨a, b, rfl, rfl, hab, hb, -⟩ := firstDuplicate_some _ _ _ _ hij
      simp only [Option.some.injEq, Prod.mk.injEq] at h
      obtain ⟨rfl, rfl⟩ := h
      exact ⟨pairInfo_legal _ _ (by omega) (by omega), .inr rfl⟩
    · simp at h

theorem State.checkCounts_some (s : State) (c : Cause) (info : Half) (h : s.checkCounts = some (c, info)) :
    c = .invalidParameters ∧ (info = subMlenZero ∨ info = subNshZero) := by
  unfold State.checkCounts at h
  split at h
  · simp only [Option.some.injEq, Prod.mk.injEq] at h
    exact ⟨h.1.symm, .inl h.2.symm⟩
  · split at h
    · simp only [Option.some.injEq, Prod.mk.injEq] at h
      exact ⟨h.1.symm, .inr h.2.symm⟩
    · simp at h

theorem State.length_shareXs_le (s : State) : s.shareXs.length ≤ 255 := by
  have := s.nsh.isLt
  simp
  omega

theorem State.combineFault_legal (s : State) (c : Cause) (info : Half) (h : s.combineFault = some (c, info)) :
    faultInfoLegal c.code info = true ∧ (c = .invalidParameters ∨ c = .zeroShareIndex ∨ c = .duplicateShareIndex) := by
  unfold State.combineFault at h
  split at h
  · rename_i f hf
    cases h
    obtain ⟨rfl, rfl | rfl⟩ := s.checkCounts_some c info hf <;> exact ⟨by decide, .inl rfl⟩
  · exact (checkIndices_legal _ s.length_shareXs_le _ _ h).imp id .inr

theorem State.linterpFault_legal (s : State) (p : Nat) (c : Cause) (info : Half) (h : s.linterpFault p = some (c, info)) :
    faultInfoLegal c.code info = true ∧ (c = .invalidParameters ∨ c = .zeroShareIndex ∨ c = .duplicateShareIndex) := by
  unfold State.linterpFault at h
  split at h
  · rename_i f hf
    cases h
    obtain ⟨rfl, rfl | rfl⟩ := s.checkCounts_some c info hf <;> exact ⟨by decide, .inl rfl⟩
  · split at h
    · cases h
      exact ⟨by decide, .inl rfl⟩
    · exact (checkIndices_legal _ s.length_shareXs_le _ _ h).imp id .inr

end Sys2Proof.Machine
end

