-- ==== Sys2Proof/Laws/PerInstr.lean ====
section
/-! SUPPORT. Per instruction: its words meet the mask and the match of its row of spec/opcode_table.json (30_encoding.md R94), whatever its operands. -/

namespace Sys2Proof.Laws.EncodedRow

/-- The `mask` and the `match` of the instruction's row, as spec/opcode_table.json gives them. -/
def tableRow : Instr → Word × Word
  | .nop => (0xFFFFFFFF#32, 0x01000000#32)
  | .halt => (0xFFFFFFFF#32, 0x02000000#32)
  | .csrwi _ _ => (0xFF0F0000#32, 0x03000000#32)
  | .csrw _ _ => (0xFF00FFFF#32, 0x04000000#32)
  | .csrr _ _ => (0xFF00FFFF#32, 0x05000000#32)
  | .gfadd _ _ _ => (0xFF000FFF#32, 0x10000000#32)
  | .gfmul _ _ _ => (0xFF000FFF#32, 0x11000000#32)
  | .gfinv _ _ => (0xFF00FFFF#32, 0x12000000#32)
  | .gfpow _ _ _ => (0xFF000FFF#32, 0x13000000#32)
  | .peval _ _ => (0xFF00FFFF#32, 0x20000000#32)
  | .linterp _ _ => (0xFF00FFFF#32, 0x21000000#32)
  | .combine => (0xFFFFFFFF#32, 0x22000000#32)
  | .ceq _ _ _ => (0xFF000FFF#32, 0x30000000#32)
  | .csel _ _ _ _ => (0xFF0000FF#32, 0x31000000#32)
  | .meq _ _ => (0xFF00FFFF#32, 0x32000000#32)
  | .mzero _ => (0xFFF0FFFF#32, 0x33000000#32)
  | .ldi _ _ => (0xFF0FFF00#32, 0x40000000#32)
  | .mov _ _ => (0xFF00FFFF#32, 0x41000000#32)
  | .ldb _ _ => (0xFF0F0000#32, 0x42000000#32)
  | .ldbx _ _ _ => (0xFF000000#32, 0x43000000#32)
  | .stb _ _ => (0xFF0F0000#32, 0x44000000#32)
  | .stbx _ _ _ => (0xFF000000#32, 0x45000000#32)
  | .iadd _ _ _ => (0xFF000FFF#32, 0x46000000#32)
  | .iaddi _ _ _ => (0xFF00FF00#32, 0x47000000#32)
  | .jmp _ => (0xFFFFFF00#32, 0x50000000#32)
  | .loop _ => (0xFFFFFF00#32, 0x51000000#32)

/-- The word of the instruction meets its row's mask and match. -/
def Statement (i : Instr) : Prop := encode i &&& (tableRow i).1 = (tableRow i).2

/-! ## One lemma per constructor -/

theorem nop : Statement .nop := by rw [Statement]; decide
theorem halt : Statement .halt := by rw [Statement]; decide
theorem csrwi (csr : Csr) (imm16 : Half) : Statement (.csrwi csr imm16) := formatI_mask_rd_imm16 0x03#8 csr.number imm16
theorem csrw (csr : Csr) (ra : RegNum) : Statement (.csrw csr ra) := formatI_mask_rd_ra 0x04#8 csr.number ra
theorem csrr (rd : RegNum) (csr : Csr) : Statement (.csrr rd csr) := formatI_mask_rd_ra 0x05#8 rd csr.number
theorem gfadd (rd ra rb : RegNum) : Statement (.gfadd rd ra rb) := formatR_mask_rd_ra_rb 0x10#8 rd ra rb
theorem gfmul (rd ra rb : RegNum) : Statement (.gfmul rd ra rb) := formatR_mask_rd_ra_rb 0x11#8 rd ra rb
theorem gfinv (rd ra : RegNum) : Statement (.gfinv rd ra) := formatR_mask_rd_ra 0x12#8 rd ra
theorem gfpow (rd ra rb : RegNum) : Statement (.gfpow rd ra rb) := formatR_mask_rd_ra_rb 0x13#8 rd ra rb
theorem peval (rd ra : RegNum) : Statement (.peval rd ra) := formatR_mask_rd_ra 0x20#8 rd ra
theorem linterp (rd ra : RegNum) : Statement (.linterp rd ra) := formatR_mask_rd_ra 0x21#8 rd ra
theorem combine : Statement .combine := by rw [Statement]; decide
theorem ceq (rd ra rb : RegNum) : Statement (.ceq rd ra rb) := formatR_mask_rd_ra_rb 0x30#8 rd ra rb
theorem csel (rd ra rb rc : RegNum) : Statement (.csel rd ra rb rc) := formatR_mask_rd_ra_rb_rc 0x31#8 rd ra rb rc
theorem meq (rd ra : RegNum) : Statement (.meq rd ra) := formatR_mask_rd_ra 0x32#8 rd ra
theorem mzero (ra : RegNum) : Statement (.mzero ra) := formatR_mask_ra 0x33#8 ra
theorem ldi (rd : RegNum) (imm8 : Byte) : Statement (.ldi rd imm8) := formatI_mask_rd_imm8 0x40#8 rd imm8
theorem mov (rd ra : RegNum) : Statement (.mov rd ra) := formatR_mask_rd_ra 0x41#8 rd ra
theorem ldb (rd : RegNum) (imm16 : Half) : Statement (.ldb rd imm16) := formatI_mask_rd_imm16 0x42#8 rd imm16
theorem ldbx (rd ra : RegNum) (imm16 : Half) : Statement (.ldbx rd ra imm16) := formatI_mask_rd_ra_imm16 0x43#8 rd ra imm16
theorem stb (rs : RegNum) (imm16 : Half) : Statement (.stb rs imm16) := formatI_mask_rd_imm16 0x44#8 rs imm16
theorem stbx (rs ra : RegNum) (imm16 : Half) : Statement (.stbx rs ra imm16) := formatI_mask_rd_ra_imm16 0x45#8 rs ra imm16
theorem iadd (rd ra rb : RegNum) : Statement (.iadd rd ra rb) := formatR_mask_rd_ra_rb 0x46#8 rd ra rb
theorem iaddi (rd ra : RegNum) (imm8 : Byte) : Statement (.iaddi rd ra imm8) := formatI_mask_rd_ra_imm8 0x47#8 rd ra imm8
theorem jmp (target : Byte) : Statement (.jmp target) := formatI_mask_imm8 0x50#8 target
theorem loop (target : Byte) : Statement (.loop target) := formatI_mask_imm8 0x51#8 target

end Sys2Proof.Laws.EncodedRow
end

