-- ==== Sys2Proof/Laws/Step.lean ====
section
/-! SUPPORT. Every way an instruction can end, and every way a step can, said once. -/

namespace Sys2Proof.Machine

/-- `t` is what executing `i` in `s` leaves, by the operation that ends the instruction. -/
inductive EndsIn (i : Instr) (s t : State) : Prop where
  | writesReg (rd : RegNum) (v : Byte) (hd : destReg i = some rd) (ht : t = (s.writeReg rd v).nextPc)
  | writesCsr (c : Csr) (v : Half) (hd : destCsr i = some c) (hw : c.writable = true) (ht : t = (s.writeCsr c v).nextPc)
  | writesBytes (a : Nat) (vs : List Byte) (hd : destBytes s i = (a, vs.length)) (hl : vs.length < 256)
      (ht : t = (s.memWriteBytes a vs).nextPc)
  | goesOn (ht : t = s.nextPc)
  | halts (hi : i = .halt) (ht : t = s.halt)
  | jumps (target : Byte) (hi : i = .jmp target) (ht : t = s.jumpTo target)
  | loops (target : Byte) (hi : i = .loop target) (ht : t = (s.writeCsr .lc ((s.lc - 1).setWidth 16)).jumpTo target)
  | faults (c : Cause) (info : Half) (hl : faultInfoLegal c.code info = true) (hr : i.wellFormed = true → c.code ∈ raisable i)
      (ht : t = s.raise c info)

/-- What an execution that answers `t` did. -/
theorem exec_cases (i : Instr) (s t : State) (h : exec i s = .next t) : EndsIn i s t := by
  cases i
  case nop => cases h; exact .goesOn rfl
  case halt => cases h; exact .halts rfl rfl
  case csrwi c v =>
    simp only [exec, execCsrwi] at h
    split at h
    · split at h <;> cases h
      · exact .writesCsr c v rfl ‹_› rfl
      · exact .faults _ _ (by decide) (fun _ => by simp [raisable, Cause.code]) rfl
    · cases h
      exact .faults _ _ (by decide) (fun hw => absurd hw ‹_›) rfl
  case csrw c ra =>
    simp only [exec, execCsrw] at h
    split at h <;> cases h
    · exact .writesCsr c _ rfl ‹_› rfl
    · exact .faults _ _ (by decide) (fun hw => absurd hw ‹_›) rfl
  case gfinv rd ra =>
    simp only [exec, execGfinv] at h
    split at h <;> cases h
    · exact .faults _ _ (by decide) (fun _ => by simp [raisable, Cause.code]) rfl
    · exact .writesReg rd _ rfl rfl
  case peval rd ra =>
    simp only [exec, execPeval] at h
    split at h <;> cases h
    · exact .faults _ _ (by decide) (fun _ => by simp [raisable, Cause.code]) rfl
    · exact .writesReg rd _ rfl rfl
  case linterp rd ra =>
    simp only [exec, execLinterp] at h
    split at h <;> cases h
    · rename_i c info hf
      obtain ⟨hl, hc⟩ := s.linterpFault_legal _ c info hf
      exact .faults c info hl (fun _ => by rcases hc with rfl | rfl | rfl <;> simp [raisable, Cause.code]) rfl
    · exact .writesReg rd _ rfl rfl
  case combine =>
    simp only [exec, execCombine] at h
    split at h <;> cases h
    · rename_i c info hf
      obtain ⟨hl, hc⟩ := s.combineFault_legal c info hf
      exact .faults c info hl (fun _ => by rcases hc with rfl | rfl | rfl <;> simp [raisable, Cause.code]) rfl
    · exact .writesBytes _ s.combineOut (by simp [destBytes]) (by simpa using s.mlen.isLt) rfl
  case mzero ra =>
    cases h
    exact .writesBytes _ (List.replicate (s.readReg ra).toNat 0) (by simp [destBytes]) (by simpa using (s.readReg ra).isLt) rfl
  case stb rs a => cases h; exact .writesBytes _ [_] rfl (by simp) rfl
  case stbx rs ra a => cases h; exact .writesBytes _ [_] rfl (by simp) rfl
  case jmp target => cases h; exact .jumps target rfl rfl
  case loop target =>
    simp only [exec, execLoop] at h
    split at h <;> cases h
    · exact .goesOn rfl
    · exact .loops target rfl rfl
  all_goals cases h; exact .writesReg _ _ rfl rfl

/-- What a step that answers `t` did. -/
theorem step_cases (s t : State) (h : step s = .next t) :
    (s.runState ≠ .run ∧ t = s) ∨
    (s.runState = .run ∧ ∃ i, decode (s.readImem s.pc) = .ok i ∧ exec i s = .next t) ∨
    (s.runState = .run ∧ (∃ e, decode (s.readImem s.pc) = .error e) ∧ t = s.raise .illegalInstruction 0) := by
  unfold step at h
  split at h
  · rename_i hr
    split at h
    · exact .inr (.inl ⟨hr, _, ‹_›, h⟩)
    · cases h
      exact .inr (.inr ⟨hr, ⟨_, ‹_›⟩, rfl⟩)
  all_goals
    cases h
    exact .inl ⟨by simp_all, rfl⟩

end Sys2Proof.Machine
end

