-- ==== Sys2Proof/Laws/Transactions.lean ====
section
/-! SUPPORT. The guards of the host's transactions, said once (60_exceptions.md R262 to R270). -/

namespace Sys2Proof.Machine

theorem State.transact_of_run (s : State) (h : s.runState = .run) (tr : Transaction) : s.transact tr = s.transactRunning tr := if_pos h

theorem State.transact_of_ne_run (s : State) (h : s.runState ≠ .run) (tr : Transaction) : s.transact tr = s.transactStopped tr := if_neg h

/-- Reset is accepted in every run state (60_exceptions.md R262). -/
theorem State.transact_reset (s : State) : s.transact .reset = (s.hostReset, .done) := by
  unfold State.transact
  split <;> rfl

@[simp] theorem State.readReg_hostReset (s : State) (r : RegNum) : s.hostReset.readReg r = 0 :=
  (State.readReg_congr State.reset s.hostReset rfl r).trans (State.readReg_reset r)

/-- A value fits a control register when the register has 16 bits or the value is at most 255 (10_state.md R43). -/
theorem csrFits_iff (c : Csr) (v : Half) : csrFits c v = true ↔ csrWide c = true ∨ v ≤ 255 := by
  have h : v.extractLsb' 8 8 = 0#8 ↔ v ≤ 255 := by
    rw [← BitVec.toNat_inj, BitVec.le_def]
    simp [Nat.shiftRight_eq_div_pow]
    omega
  simp [csrFits, h]

/-- What a row of the table of 10_state.md R28 says, in the model's own functions. -/
theorem csrTable_spec (n : BitVec 4) (c : Csr) (wide writable : Bool) (reset : Half) (h : (n, c, wide, writable, reset) ∈ csrTable) :
    n = c.number ∧ wide = csrWide c ∧ writable = c.writable ∧ csrOfIndex n.toNat = some c := by
  have all : ∀ x ∈ csrTable, x.1 = x.2.1.number ∧ x.2.2.1 = csrWide x.2.1 ∧ x.2.2.2.1 = x.2.1.writable ∧
      csrOfIndex x.1.toNat = some x.2.1 := by decide
  exact all _ h

end Sys2Proof.Machine
end

