-- ==== Sys2Proof/Tests/Slice0.lean ====
section
/-! SUPPORT. The model's own tests: terms `wellFormed` refuses, words of 95_test_vectors.md section 9 against their instructions, vectors of
sections 2 to 8 and 11 run by one step, and for each obligation with hypotheses a state that meets them. Every expected value is the spec's. -/

namespace Sys2Proof.Tests

-- One theorem at a time: so many evaluations by the kernel at once would ask for more threads than there is memory for.
set_option Elab.async false

open Sys2Proof.Machine

/-! ## Small states -/

/-- A running machine after reset with the given general registers, control registers and bytes of data memory. -/
def running (regs : List (RegNum × Byte)) (csrs : List (Csr × Half)) (mem : List (Nat × List Byte)) : State :=
  let s0 : State := { State.reset with runState := .run }
  let s1 := regs.foldl (fun s rv => s.writeReg rv.1 rv.2) s0
  let s2 := csrs.foldl (fun s cv => s.writeCsr cv.1 cv.2) s1
  mem.foldl (fun s am => s.memWriteBytes am.1 am.2) s2

/-- The outcome is a next state that passes the check. -/
def nextIs (r : Result) (check : State → Bool) : Bool :=
  match r with
  | .next t => check t
  | .fault _ => false
  | .refused _ => false

/-- One step on the word `w`, placed where `s` fetches. -/
def run1 (s : State) (w : Nat) : Result := step (s.withFetchWord 32 w)

/-- `t` stands in `FAULTED` with this report of a fault at `index`. -/
def faultedWith (t : State) (code : BitVec 8) (info : Half) (index : BitVec 8) : Bool :=
  t.cause == code && t.finfo == info && t.epc == index && t.pc == index && t.runState == .faulted

/-- The state after a transaction, for a sequence of them. -/
def hosts (s : State) (trs : List Transaction) : State := trs.foldl (fun s tr => (s.transact tr).1) s

/-- Two shares of section 1.1: `01 76` and `02 92`. -/
def twoShares (regs : List (RegNum × Byte)) : State :=
  running regs [(.mlen, 1), (.nsh, 2), (.sbase, 0x0200), (.obase, 0x0300)] [(0x0200, [0x01, 0x76, 0x02, 0x92])]

/-- A share array of 2-byte shares at 0x0300. -/
def shareArray (n : Half) (bytes : List Byte) : State := running [] [(.mlen, 1), (.nsh, n), (.sbase, 0x0300), (.obase, 0x0400)] [(0x0300, bytes)]

/-- The program of section 11 loaded, `x[1]` = `53`, as before V-HST-8. -/
def hostLoaded : State := hosts State.reset [.reset, .writeImem 0 0x12210000#32, .writeImem 1 0x02000000#32, .writeReg 1 0x53]

/-- After V-HST-8, V-HST-12 (`HALTED`) and V-HST-16 (`FAULTED`). -/
def hostRunning : State := (hostLoaded.transact .start).1
def stepped (s : State) : State :=
  match step s with
  | .next t => t
  | .fault _ => s
  | .refused _ => s
def hostHalted : State := stepped (stepped hostRunning)
def hostFaulted : State := stepped (hosts hostHalted [.writeReg 1 0x00, .start])

/-! ## Terms that are not well-formed (30_encoding.md R96) -/

/-- V-CSW-4. -/
theorem test_csrwi_status_is_ill_formed : (Instr.csrwi .status 0).wellFormed = false := by decide

/-- V-CSX-3. -/
theorem test_csrw_finfo_is_ill_formed : (Instr.csrw .finfo 3).wellFormed = false := by decide

theorem test_csrwi_entry_is_well_formed : (Instr.csrwi .entry 0).wellFormed = true ∧ (Instr.csrw .lc 0).wellFormed = true := by decide

/-! ## Decoding: 95_test_vectors.md section 9 -/

/-- The fields of V-DEC-9 written bit by bit: op 11, rd 3, ra 1, rb 2, rc 0, z8 00 (30_encoding.md R91). -/
theorem test_gfmul_bits : decode 0b00010001001100010010000000000000 = .ok (.gfmul 3 1 2) := by decide

/-- One word of each format with an immediate, bit by bit (30_encoding.md R92): CSRWI LC, 0xFF; STBX x2, x4, 0x0300. -/
theorem test_formatI_bits :
    decode 0b00000011110100000000000011111111 = .ok (.csrwi .lc 0xFF) ∧
    decode 0b01000101001001000000001100000000 = .ok (.stbx 2 4 0x0300) := by decide

theorem test_decode_nop : decode 0x01000000 = .ok .nop := by decide

theorem test_decode_halt : decode 0x02000000 = .ok .halt := by decide

theorem test_decode_csrwi : decode 0x03D000FF = .ok (.csrwi .lc 0xFF) := by decide

theorem test_decode_csrw : decode 0x04D30000 = .ok (.csrw .lc 3) := by decide

theorem test_decode_csrr : decode 0x054D0000 = .ok (.csrr 4 .lc) := by decide

theorem test_decode_gfadd : decode 0x10312000 = .ok (.gfadd 3 1 2) := by decide

theorem test_decode_gfinv : decode 0x12210000 = .ok (.gfinv 2 1) := by decide

theorem test_decode_gfpow : decode 0x13312000 = .ok (.gfpow 3 1 2) := by decide

theorem test_decode_peval : decode 0x20210000 = .ok (.peval 2 1) := by decide

theorem test_decode_linterp : decode 0x21210000 = .ok (.linterp 2 1) := by decide

theorem test_decode_combine : decode 0x22000000 = .ok .combine := by decide

theorem test_decode_ceq : decode 0x30412000 = .ok (.ceq 4 1 2) := by decide

theorem test_decode_csel : decode 0x31512300 = .ok (.csel 5 1 2 3) := by decide

theorem test_decode_meq : decode 0x32310000 = .ok (.meq 3 1) := by decide

theorem test_decode_mzero : decode 0x33010000 = .ok (.mzero 1) := by decide

theorem test_decode_ldi : decode 0x4010002A = .ok (.ldi 1 0x2A) := by decide

theorem test_decode_mov : decode 0x41720000 = .ok (.mov 7 2) := by decide

theorem test_decode_ldb : decode 0x42100100 = .ok (.ldb 1 0x0100) := by decide

theorem test_decode_ldbx : decode 0x43540200 = .ok (.ldbx 5 4 0x0200) := by decide

theorem test_decode_stb : decode 0x44200301 = .ok (.stb 2 0x0301) := by decide

theorem test_decode_iadd : decode 0x46411000 = .ok (.iadd 4 1 1) := by decide

theorem test_decode_iaddi : decode 0x47210001 = .ok (.iaddi 2 1 1) := by decide

theorem test_decode_jmp : decode 0x50000010 = .ok (.jmp 0x10) := by decide

theorem test_decode_loop : decode 0x51000002 = .ok (.loop 0x02) := by decide

/-- V-DEC-1, V-DEC-2, V-DEC-7, V-DEC-15, V-DEC-35, V-DEC-40. -/
theorem test_unassigned_opcodes :
    ([0x00000000#32, 0xFFFFFFFF#32, 0x06000000#32, 0x14000000#32, 0x48000000#32, 0x52000000#32].all fun w =>
      decode w == .error .unassignedOpcode) = true := by decide

/-- V-DEC-4, 5, 10, 11, 13, 19, 24, 26, 29, 37, 38, 45; V-LDI-3, V-IAI-4, V-CSW-6. -/
theorem test_must_be_zero_bits :
    ([0x01000001#32, 0x01100000#32, 0x11312100#32, 0x11312001#32, 0x12211000#32, 0x22010000#32, 0x33110000#32, 0x4011002A#32, 0x42110100#32,
      0x50000110#32, 0x50100010#32, 0x04D30001#32, 0x40100100#32, 0x47210100#32, 0x03610003#32].all fun w =>
      decode w == .error .mustBeZero) = true := by decide

/-- V-DEC-42, 43, 48; V-CSW-4, V-CSW-5, V-CSX-3, V-CSR-5. -/
theorem test_csr_numbers :
    ([0x03300000#32, 0x03F00000#32, 0x054F0000#32, 0x03000001#32, 0x03E00001#32, 0x04330000#32, 0x054E0000#32].all fun w =>
      decode w == .error .csrNumber) = true := by decide

theorem test_decode_table_word : decodeTableWord 32 0x11312000 = some (.gfmul 3 1 2) ∧ decodeTableWord 32 0 = none := by decide

/-- 30_encoding.md R101; the words of P1 index 0E, V-DEC-8 and 11111000 by R91. -/
theorem test_pseudo_instructions :
    encode (pseudoClr 3) = 0x40300000 ∧ encode (pseudoGfsub 3 1 2) = 0x10312000 ∧ encode (pseudoGfsqr 1 1) = 0x11111000 := by decide

/-! ## One step from reset -/

/-- V-LDI-1 as the first instruction after reset. -/
theorem test_first_instruction : nextIs (run1 State.reset 0x4010002A) (fun t => t.readReg 1 == 0x2A && t.pc == 1) = true := by decide +kernel

/-- V-DEC-1 run: an illegal word is reported at its index. -/
theorem test_illegal_word : nextIs (run1 State.reset 0) (fun t => faultedWith t 7 0 0) = true := by decide +kernel

/-! ## Instructions: one step each (95_test_vectors.md sections 2 to 8) -/

/-- V-NOP-1. -/
theorem test_nop_wraps :
    nextIs (run1 ({ running [] [] [] with pc := 0xFF }) 0x01000000)
      (fun t => t.pc == 0x00 && t.runState == .run) = true := by decide +kernel

/-- V-HLT-1. -/
theorem test_halt :
    nextIs (run1 ({ running [] [] [] with pc := 0x09 }) 0x02000000)
      (fun t => t.pc == 0x09 && t.readCsr .status == 2 && t.done) = true := by decide +kernel

/-- V-CSW-2. -/
theorem test_csrwi_wide : nextIs (run1 (running [] [] []) 0x03700300) (fun t => t.sbase == 0x0300 && t.pc == 1) = true := by decide +kernel

/-- V-FLT-11. -/
theorem test_csrwi_too_big :
    nextIs (run1 ({ running [] [] [] with pc := 0x05 }) 0x03600100)
      (fun t => faultedWith t 1 0x0005 0x05 && t.nsh == 0) = true := by decide +kernel

/-- V-CSX-2. -/
theorem test_csrw_clears_high_byte :
    nextIs (run1 (running [(3, 0x80)] [(.sbase, 0x1234)] []) 0x04730000)
      (fun t => t.sbase == 0x0080) = true := by decide +kernel

/-- V-CSX-1. -/
theorem test_csrw_lc : nextIs (run1 (running [(3, 0x05)] [] []) 0x04D30000) (fun t => t.lc == 0x05) = true := by decide +kernel

/-- V-CSR-2. -/
theorem test_csrr_low_byte : nextIs (run1 (running [] [(.sbase, 0x1234)] []) 0x05470000) (fun t => t.readReg 4 == 0x34) = true := by decide +kernel

/-- V-CSR-3. -/
theorem test_csrr_status : nextIs (run1 (running [] [] []) 0x05400000) (fun t => t.readReg 4 == 0x01) = true := by decide +kernel

/-- V-ADD-1. -/
theorem test_gfadd : nextIs (run1 (running [(1, 0x57), (2, 0x83)] [] []) 0x10312000) (fun t => t.readReg 3 == 0xD4) = true := by decide +kernel

/-- V-ADD-5. -/
theorem test_gfadd_no_carry :
    nextIs (run1 (running [(1, 0xAA), (2, 0x55)] [] []) 0x10312000)
      (fun t => t.readReg 3 == 0xFF) = true := by decide +kernel

/-- V-MUL-1. -/
theorem test_gfmul : nextIs (run1 (running [(1, 0x57), (2, 0x83)] [] []) 0x11312000) (fun t => t.readReg 3 == 0xC1) = true := by decide +kernel

/-- V-MUL-15. -/
theorem test_gfmul_square : nextIs (run1 (running [(1, 0xFF), (2, 0xFF)] [] []) 0x11312000) (fun t => t.readReg 3 == 0x13) = true := by decide +kernel

/-- V-INV-4. -/
theorem test_gfinv : nextIs (run1 (running [(1, 0x53)] [] []) 0x12210000) (fun t => t.readReg 2 == 0xCA) = true := by decide +kernel

/-- V-INV-9. -/
theorem test_gfinv_zero :
    nextIs (run1 ({ running [(2, 0x11)] [] [] with pc := 0x07 }) 0x12210000)
      (fun t => faultedWith t 6 0 0x07 && t.readReg 2 == 0x11) = true := by decide +kernel

/-- V-POW-17. -/
theorem test_gfpow : nextIs (run1 (running [(1, 0x03), (2, 51)] [] []) 0x13312000) (fun t => t.readReg 3 == 0x0C) = true := by decide +kernel

/-- V-POW-1. -/
theorem test_gfpow_zero_to_zero : nextIs (run1 (running [] [] []) 0x13312000) (fun t => t.readReg 3 == 0x01) = true := by decide +kernel

/-- V-PEV-6. -/
theorem test_peval :
    nextIs (run1 (running [(1, 0x04)] [(.ncoef, 3), (.cbase, 0x0100)] [(0x0100, [0x11, 0x22, 0x33])]) 0x20210000)
      (fun t => t.readReg 2 == 0x84) = true := by decide +kernel

/-- V-PEV-10. -/
theorem test_peval_wraps :
    nextIs (run1 (running [(1, 0x02)] [(.ncoef, 2), (.cbase, 0xFFFF)] [(0xFFFF, [0x2A, 0x5C])]) 0x20210000)
      (fun t => t.readReg 2 == 0x92 && t.memRead 0 == 0x5C) = true := by decide +kernel

/-- V-LIN-9. -/
theorem test_linterp_position :
    nextIs (run1 (running [(1, 0x01)] [(.mlen, 3), (.nsh, 2), (.sbase, 0x0200)] [(0x0200, [0x01, 0xA1, 0x76, 0xA3, 0x02, 0xB1, 0x92, 0xB3])]) 0x21210000)
      (fun t => t.readReg 2 == 0x2A) = true := by decide +kernel

/-- V-FLT-7. -/
theorem test_linterp_first_duplicate :
    nextIs (run1 (shareArray 4 [0x05, 0x00, 0x07, 0x00, 0x07, 0x00, 0x05, 0x00]) 0x21210000)
      (fun t => faultedWith t 2 0x0003 0) = true := by decide +kernel

/-- V-CMB-9. -/
theorem test_combine_overlap :
    nextIs (run1 (running [] [(.mlen, 2), (.nsh, 2), (.sbase, 0x0300), (.obase, 0x0301)] [(0x0300, [0x01, 0x76, 0x9B, 0x03, 0xCE, 0x2D])]) 0x22000000)
      (fun t => t.memReadBytes 0x0300 6 == [0x01, 0x2A, 0xC0, 0x03, 0xCE, 0x2D]) = true := by decide +kernel

/-- V-FLT-8. -/
theorem test_combine_zero_before_duplicate :
    nextIs (run1 (shareArray 3 [0x02, 0x92, 0x02, 0x92, 0x00, 0xCE]) 0x22000000)
      (fun t => faultedWith t 5 0x0002 0 && t.memRead 0x0400 == 0) = true := by decide +kernel

/-- V-CEQ-4. -/
theorem test_ceq_bit7 : nextIs (run1 (running [(1, 0x80)] [] []) 0x30412000) (fun t => t.readReg 4 == 0x00) = true := by decide +kernel

/-- V-CEQ-5. -/
theorem test_ceq_same : nextIs (run1 (running [(1, 0x5C)] [] []) 0x30111000) (fun t => t.readReg 1 == 0x01) = true := by decide +kernel

/-- V-CSL-5. -/
theorem test_csel_false : nextIs (run1 (running [(1, 0x00), (2, 0x55)] [] []) 0x31112100) (fun t => t.readReg 1 == 0x55) = true := by decide +kernel

/-- V-CSL-4. -/
theorem test_csel_true :
    nextIs (run1 (running [(1, 0xAA), (2, 0x55), (3, 0x80)] [] []) 0x31512300)
      (fun t => t.readReg 5 == 0xAA) = true := by decide +kernel

/-- V-MEQ-4. -/
theorem test_meq_first_byte :
    nextIs (run1 (running [(1, 0x03)] [(.abase, 0x0500), (.bbase, 0x0600)] [(0x0500, [0x10, 0x22, 0x33]), (0x0600, [0x11, 0x22, 0x33])]) 0x32310000)
      (fun t => t.readReg 3 == 0x00) = true := by decide +kernel

/-- V-MEQ-7. -/
theorem test_meq_wraps :
    nextIs (run1 (running [(1, 0x02)] [(.abase, 0xFFFF), (.bbase, 0x0100)] [(0xFFFF, [0x11, 0x22]), (0x0100, [0x11, 0x22])]) 0x32310000)
      (fun t => t.readReg 3 == 0x01) = true := by decide +kernel

/-- V-MZ-1. -/
theorem test_mzero :
    nextIs (run1 (running [(1, 0x02)] [(.abase, 0x0100)] [(0x0100, [0x2A, 0x5C, 0x77])]) 0x33010000)
      (fun t => t.memReadBytes 0x0100 3 == [0x00, 0x00, 0x77]) = true := by decide +kernel

/-- V-MZ-3. -/
theorem test_mzero_wraps :
    nextIs (run1 (running [(1, 0x02)] [(.abase, 0xFFFF)] [(0xFFFF, [0x11, 0x22, 0x33])]) 0x33010000)
      (fun t => t.dmem == [(1, 0x33)]) = true := by decide +kernel

/-- V-LDI-2. -/
theorem test_ldi : nextIs (run1 (running [] [] []) 0x40F000FF) (fun t => t.readReg 15 == 0xFF) = true := by decide +kernel

/-- V-MOV-1. -/
theorem test_mov :
    nextIs (run1 (running [(2, 0x92)] [] []) 0x41720000)
      (fun t => t.readReg 7 == 0x92 && t.readReg 2 == 0x92) = true := by decide +kernel

/-- V-LDB-2. -/
theorem test_ldb_top : nextIs (run1 (running [] [] [(0xFFFF, [0x7E])]) 0x4210FFFF) (fun t => t.readReg 1 == 0x7E) = true := by decide +kernel

/-- V-LDX-2. -/
theorem test_ldbx_wraps :
    nextIs (run1 (running [(4, 0x02)] [] [(0x0001, [0x3C])]) 0x4354FFFF)
      (fun t => t.readReg 5 == 0x3C) = true := by decide +kernel

/-- V-LDX-3. -/
theorem test_ldbx_index_is_destination :
    nextIs (run1 (running [(4, 0xFF)] [] [(0x02FF, [0x11])]) 0x43440200)
      (fun t => t.readReg 4 == 0x11) = true := by decide +kernel

/-- V-STB-1. -/
theorem test_stb : nextIs (run1 (running [(2, 0x92)] [] []) 0x44200301) (fun t => t.dmem == [(0x0301, 0x92)]) = true := by decide +kernel

/-- V-STX-2. -/
theorem test_stbx_wraps :
    nextIs (run1 (running [(2, 0xCE), (4, 0x03)] [] []) 0x4524FFFE)
      (fun t => t.memRead 0x0001 == 0xCE) = true := by decide +kernel

/-- V-STX-3. -/
theorem test_stbx_index_is_source :
    nextIs (run1 (running [(4, 0x05)] [] []) 0x45440300)
      (fun t => t.dmem == [(0x0305, 0x05)]) = true := by decide +kernel

/-- V-IAD-4. -/
theorem test_iadd : nextIs (run1 (running [(1, 0x57), (2, 0x83)] [] []) 0x46312000) (fun t => t.readReg 3 == 0xDA) = true := by decide +kernel

/-- V-IAD-2. -/
theorem test_iadd_carry : nextIs (run1 (running [(1, 0xFF), (2, 0x01)] [] []) 0x46312000) (fun t => t.readReg 3 == 0x00) = true := by decide +kernel

/-- V-IAI-3. -/
theorem test_iaddi_minus_one : nextIs (run1 (running [(1, 0x00)] [] []) 0x472100FF) (fun t => t.readReg 2 == 0xFF) = true := by decide +kernel

/-- V-IAI-1. -/
theorem test_iaddi : nextIs (run1 (running [(1, 0x02)] [] []) 0x47210001) (fun t => t.readReg 2 == 0x03) = true := by decide +kernel

/-- V-JMP-1. -/
theorem test_jmp : nextIs (run1 ({ running [] [] [] with pc := 0x04 }) 0x50000010) (fun t => t.pc == 0x10) = true := by decide +kernel

/-- V-LOP-3. -/
theorem test_loop_taken :
    nextIs (run1 ({ running [] [(.lc, 1)] [] with pc := 0x07 }) 0x51000002)
      (fun t => t.pc == 0x02 && t.lc == 0) = true := by decide +kernel

/-- V-LOP-4. -/
theorem test_loop_falls_through :
    nextIs (run1 ({ running [] [] [] with pc := 0xFF }) 0x510000FF)
      (fun t => t.pc == 0x00 && t.lc == 0) = true := by decide +kernel

/-! ## Host transactions (95_test_vectors.md section 11) -/

/-- V-HST-1 to V-HST-5. -/
theorem test_host_idle :
    (State.reset.transact (.readCsr 0)).2 = .half 0 ∧ (State.reset.transact (.readCsr 5)).2 = .half 0x40 ∧
      (State.reset.transact (.writeCsr 6 0x0100)).2 = .refused ∧ (State.reset.transact (.writeCsr 0 1)).2 = .refused ∧
      (State.reset.transact (.writeCsr 14 0)).2 = .refused := by decide +kernel

/-- V-HST-8 to V-HST-11. -/
theorem test_host_running :
    hostRunning.pc = 0 ∧ (hostRunning.transact (.readDmem 0)).2 = .refused ∧ (hostRunning.transact (.readCsr 0)).2 = .half 1 ∧
      (hostRunning.transact .start).2 = .refused := by decide +kernel

/-- V-HST-12, V-HST-13. -/
theorem test_host_halted :
    hostHalted.runState = .halted ∧ hostHalted.pc = 1 ∧ hostHalted.done = true ∧ (hostHalted.transact (.readReg 2)).2 = .byte 0xCA := by
  decide +kernel

/-- V-HST-16 to V-HST-18. -/
theorem test_host_faulted :
    faultedWith hostFaulted 6 0 0 = true ∧ hostFaulted.readReg 2 = 0xCA ∧ (hostFaulted.transact (.readCsr 1)).2 = .half 6 ∧
      (hostFaulted.transact .start).2 = .refused := by decide +kernel

/-- V-HST-19, V-HST-20. -/
theorem test_host_reset :
    (hosts hostFaulted [.writeDmem 0x0010 0x77]).memRead 0x0010 = 0x77 ∧
      (hosts hostFaulted [.writeDmem 0x0010 0x77, .reset]).dmem = [] ∧ (hosts hostFaulted [.reset]).runState = .idle ∧
      (hosts hostFaulted [.reset]).mlen = 0x40 ∧ (hosts hostFaulted [.reset]).readImem 0 = 0x12210000 := by decide +kernel

/-! ## Witnesses: what meets the hypotheses of each obligation -/

theorem witness_DecodeOfEncodeGivesTheInstruction :
    (Instr.csrwi .lc 0xFFFF).wellFormed = true ∧ (Instr.csel 15 1 2 3).wellFormed = true := by decide

theorem witness_EveryDecodedWordIsTheEncodingOfItsInstruction :
    decode 0x03D000FF = .ok (.csrwi .lc 0xFF) := by decide

theorem witness_DecoderAcceptsExactlyTheLegalWords :
    LegalWord 0x03400000 ∧ LegalWord 0x05DD0000 ∧ ¬ LegalWord 0x05DE0000 ∧ ¬ LegalWord 0x03300000 := by
  unfold LegalWord
  decide

theorem witness_ControlRegisterFileIsTheTable :
    (13, .lc, false, true, 0x00) ∈ csrTable ∧ (7, .sbase, true, true, 0x0000) ∈ csrTable ∧ (3, .finfo, true, false, 0x0000) ∈ csrTable ∧
      State.reset.runState ≠ .run ∧ (255 : Half) < 256 ∧ ((14 : BitVec 4) = 14 ∨ (14 : BitVec 4) = 15) := by decide +kernel

theorem witness_StepRunsTheDecodedInstruction :
    (State.reset.withFetchWord 32 0x4010002A).runState = .run ∧
      decode ((State.reset.withFetchWord 32 0x4010002A).readImem (State.reset.withFetchWord 32 0x4010002A).pc) = .ok (.ldi 1 0x2A) := by decide +kernel

theorem witness_EngineDoesNothingOutsideRun :
    State.reset.readCsr .status ≠ 1 ∧ hostHalted.readCsr .status ≠ 1 ∧ hostFaulted.readCsr .status ≠ 1 := by decide +kernel

theorem witness_IllegalWordRaisesIllegalInstruction :
    (State.reset.withFetchWord 32 0).runState = .run ∧ (State.reset.withFetchWord 32 0).readImem (State.reset.withFetchWord 32 0).pc = 0 ∧
      ¬ LegalWord 0 ∧ (State.reset.withFetchWord 32 0x01000000).readImem (State.reset.withFetchWord 32 0x01000000).pc = 0x01000000 ∧
      LegalWord 0x01000000 := by
  unfold LegalWord
  decide +kernel

theorem witness_StepKeepsTheInvariant :
    hostRunning.Inv ∧ nextIs (step hostRunning) (fun _ => true) = true ∧ hostFaulted.Inv ∧ hostHalted.Inv := by decide +kernel

theorem witness_TransactionsKeepTheInvariant :
    State.reset.Inv ∧ (hosts hostFaulted [.writeDmem 0xFFFF 0x77]).Inv := by decide +kernel

theorem witness_RunStateChangesOnlyAsListed :
    nextIs (run1 State.reset 0x02000000) (fun t => t.runState == .halted) = true ∧ nextIs (run1 State.reset 0) (fun t => t.runState == .faulted) = true ∧
      (hostFaulted.transact .reset).1.runState ≠ hostFaulted.runState ∧ (hostHalted.transact .start).1.runState ≠ hostHalted.runState ∧
      (State.reset.transact .start).1.runState ≠ State.reset.runState ∧ (running [] [] []).runState = .run := by decide +kernel

theorem witness_FaultsArePrecise :
    (State.reset.withFetchWord 32 0x12210000).runState = .run ∧ nextIs (run1 State.reset 0x12210000) (fun t => t.runState == .faulted) = true := by decide +kernel

theorem witness_InstructionsRaiseOnlyTheirCauses :
    (Instr.gfinv 2 1).wellFormed = true ∧ (running [] [] []).runState = .run ∧
      nextIs (exec (.gfinv 2 1) (running [] [] [])) (fun t => t.runState == .faulted) = true ∧
      nextIs (exec .combine (shareArray 2 [1, 0x76, 1, 0x92])) (fun t => t.runState == .faulted) = true := by decide +kernel

theorem witness_InstructionsChangeOnlyTheirDestinations :
    nextIs (run1 State.reset 0x44200301) (fun _ => true) = true ∧ nextIs (exec .combine (twoShares [])) (fun t => t.runState != .faulted) = true ∧
      nextIs (exec .halt (running [] [] [])) (fun t => t.runState != .faulted) = true := by decide +kernel

theorem witness_PcAdvancesModulo256OrGoesToTheTarget :
    (running [] [] []).runState = .run ∧ nextIs (exec (.gfinv 2 1) (running [] [] [])) (fun t => t.runState == .faulted) = true ∧
      nextIs (exec .nop { running [] [] [] with pc := 0xFF }) (fun t => t.runState != .faulted) = true ∧ (running [] [(.lc, 1)] []).lc ≠ 0 ∧
      Transaction.writeReg 0 1 ≠ .reset ∧ Transaction.writeReg 0 1 ≠ .start ∧ State.reset.runState = .idle ∧ hostHalted.runState = .halted := by decide +kernel

theorem witness_TimeDependsOnlyOnThePublicQuantities :
    decode (State.reset.withFetchWord 32 0).fetch = .error .unassignedOpcode ∧ (State.reset.withFetchWord 32 0x11312000).runState = .run ∧
      decode (State.reset.withFetchWord 32 0x11312000).fetch = .ok (.gfmul 3 1 2) ∧ opcodeOf (.gfmul 3 1 2) = opcodeOf (.gfmul 4 5 6) ∧
      opcodeOf (.gfmul 3 1 2) ∉ [0x12#8, 0x20, 0x21, 0x22, 0x32, 0x33, 0x51] ∧ (running [] [] []).lc = 0 ∧
      (twoShares [(1, 7)]).nsh = (twoShares []).nsh ∧ (twoShares [(1, 7)]).mlen = (twoShares []).mlen ∧
      (twoShares [(1, 7)]).readReg 2 = (twoShares []).readReg 2 ∧ (twoShares [(1, 7)]).ncoef = (twoShares []).ncoef := by decide +kernel

/-- GFINV, PEVAL, LINTERP and COMBINE in two states that raise the same fault, or none. -/
theorem witness_sameFault :
    nextIs (exec (.gfinv 2 1) (running [(1, 2)] [] [])) (fun t => t.runState != .faulted) = true ∧
      nextIs (exec (.gfinv 4 3) (running [(3, 9)] [] [])) (fun t => t.runState != .faulted) = true ∧
      nextIs (exec (.peval 2 1) (running [] [] [])) (fun t => t.cause == 1 && t.runState == .faulted) = true ∧
      nextIs (exec (.linterp 2 1) (shareArray 2 [1, 0x76, 1, 0x92])) (fun t => t.cause == 2 && t.runState == .faulted) = true ∧
      nextIs (exec (.linterp 2 1) (shareArray 2 [9, 0x76, 9, 0x92])) (fun t => t.cause == 2 && t.runState == .faulted) = true ∧
      nextIs (exec .combine (shareArray 2 [1, 0x76, 1, 0x92])) (fun t => t.cause == 2 && t.runState == .faulted) = true := by decide +kernel

theorem witness_LoadAfterStoreReadsTheLatestWrite :
    (0xFFFF : Half) = 0xFFFF ∧ (0xFFFF : Half) ≠ 0x0000 := by decide

theorem witness_HostAccessIsRefusedDuringRun :
    hostRunning.runState = .run ∧ Transaction.start ≠ .reset ∧ Transaction.readCsr 1 ≠ .readCsr 0 := by decide +kernel

theorem witness_HostStartBeginsARunAtEntry :
    State.reset.runState = .idle ∧ hostHalted.runState = .halted ∧ hostRunning.runState = .run ∧ hostFaulted.runState = .faulted := by decide +kernel

theorem witness_FaultedIsLeftOnlyByReset :
    hostFaulted.runState = .faulted ∧ Transaction.writeDmem 0 1 ≠ .reset ∧ 65535 < 65536 ∧ (1, .cause, false, false, 0x00) ∈ csrTable := by decide +kernel

theorem witness_HostResetLeavesTheResetState :
    (5, .mlen, false, true, 0x40) ∈ csrTable ∧ hostFaulted.runState = .faulted ∧ Transaction.start ≠ .reset := by decide +kernel

theorem witness_HostReachesBothMemoriesWhenStopped :
    hostRunning.runState = .run ∧ hostHalted.runState ≠ .run ∧ 65535 < 65536 ∧ 256 ≤ 256 ∧ 65536 ≤ 65536 ∧ (255 : BitVec 8) ≠ 0 := by decide +kernel

theorem witness_HostReachesGeneralRegistersWhenStopped :
    hostRunning.runState = .run ∧ 16 ≤ 16 ∧ hostHalted.runState ≠ .run ∧ hostFaulted.runState ≠ .run := by decide +kernel

theorem witness_HostReachesControlRegistersWhenStopped :
    hostRunning.runState = .run ∧ 1 ≠ 0 ∧ State.reset.runState ≠ .run ∧ (6, .nsh, false, true, 0x00) ∈ csrTable ∧ (255 : Half) ≤ 255 ∧ (255 : Half) < 256 ∧
      (12, .bbase, true, true, 0x0000) ∈ csrTable ∧ (0, .status, false, false, 0x00) ∈ csrTable ∧ 14 ≤ 14 := by decide +kernel

theorem witness_HostCannotWritePcOrFaultRegisters :
    Transaction.start ≠ .reset ∧ Transaction.writeReg 0 1 ≠ .reset ∧ Transaction.writeReg 0 1 ≠ .start := by decide

theorem witness_CsrwiWritesTheConstantOrFaults :
    (6, .nsh, false, true, 0x00) ∈ csrTable ∧ (255 : Half) ≤ 255 ∧ (255 : Half) < 256 ∧ (7, .sbase, true, true, 0x0000) ∈ csrTable ∧
      (3 : BitVec 4) < 4 ∧ (13 : BitVec 4) < 14 := by decide

theorem witness_CsrwWritesTheByte :
    (7, .sbase, true, true, 0x0000) ∈ csrTable ∧ (13, .lc, false, true, 0x00) ∈ csrTable ∧ 3#4 < 4#4 ∧ 13#4 < 14#4 := by decide

theorem witness_CsrrReadsTheLowByte :
    (3, .finfo, true, false, 0x0000) ∈ csrTable ∧ (0, .status, false, false, 0x00) ∈ csrTable ∧ hostRunning.Inv ∧ hostRunning.runState = .run := by decide +kernel

theorem witness_GfaddIsExclusiveOr :
    (running [(1, 0x57), (2, 0x83)] [] []).readReg 1 = 0x57 ∧ (running [(1, 0x57), (2, 0x83)] [] []).readReg 2 = 0x83 := by decide +kernel

theorem witness_GfmulIsTheFieldProduct :
    (running [(1, 0x57), (2, 0x83)] [] []).readReg 1 = 0x57 ∧ (running [(1, 0x57), (2, 0x83)] [] []).readReg 2 = 0x83 ∧
      (running [(1, 0x01)] [] []).readReg 1 = 1 ∧ (running [(1, 0x01)] [] []).readReg 2 = 0 := by decide +kernel

theorem witness_GfinvIsTheInverseOrFaults :
    (running [(1, 0x53)] [] []).readReg 0 = 0 ∧ (running [(1, 0x53)] [] []).readReg 1 ≠ 0 ∧ (running [(1, 0x53)] [] []).readReg 1 = 0x53 ∧
      (running [(1, 0x01)] [] []).readReg 1 = 1 ∧ gfMul 0x53 0xCA = 1 := by decide +kernel

theorem witness_GfpowIsThePower :
    (running [(1, 0x02), (2, 254)] [] []).readReg 1 = 0x02 ∧ (running [(1, 0x02), (2, 254)] [] []).readReg 2 = 254 ∧
      (running [(1, 0x02), (2, 255)] [] []).readReg 2 = 255 ∧ (running [(1, 0x02), (2, 0x08)] [] []).readReg 2 = 0x08 ∧
      (running [(1, 0x02), (2, 0x08)] [] []).readReg 0 = 0 := by decide +kernel

theorem witness_FieldLawsHold :
    gfMul 0x57 0 = 0 := by decide +kernel

theorem witness_InverseIsUniqueAndThePower254 :
    (0x53 : Byte) ≠ 0 ∧ gfMul 0x53 0xCA = 1 ∧ (1 : Nat) ≠ 0 := by decide +kernel

theorem witness_PolyEvalIsTheValueOfThePolynomial :
    ([0x2A] : List Byte) ≠ [] ∧ ([0x2A] : List Byte).length = 1 := by decide

theorem witness_PevalEvaluatesTheCoefficientVector :
    (running [] [] []).ncoef = 0 ∧ (running [] [(.ncoef, 1)] []).ncoef ≠ 0 := by decide +kernel

/-- V-LIN-7c: the indices of three shares. -/
theorem witness_LagrangeIsTheValueAtZeroOfTheOnePolynomial :
    ([0x05, 0x09, 0xFF] : List Byte) ≠ [] ∧ ([0x95, 0x7F, 0x6E] : List Byte).length = ([0x05, 0x09, 0xFF] : List Byte).length ∧
      0 ∉ ([0x05, 0x09, 0xFF] : List Byte) ∧ ([0x05, 0x09, 0xFF] : List Byte).Nodup ∧ lagrange0 [0x05, 0x09, 0xFF] [0x95, 0x7F, 0x6E] = 0x11 := by decide +kernel

/-- The share array of V-FLT-4: the lowest zero index is at position 1. -/
theorem witness_firstZeroAt : FirstZeroAt (shareArray 3 [0x01, 0x76, 0x00, 0x92, 0x00, 0xCE]) 3 1 := by
  unfold FirstZeroAt
  decide +kernel

/-- The share array of V-FLT-7: the pairs (0, 3) and (1, 2) are equal, and (0, 3) is the first in dictionary order. -/
theorem witness_firstDuplicateAt : FirstDuplicateAt (shareArray 4 [0x05, 0x00, 0x07, 0x00, 0x07, 0x00, 0x05, 0x00]) 4 0 3 := by
  refine ⟨by decide +kernel, by decide, by decide, by decide +kernel, fun i' j' hij hj he => ?_⟩
  have all : ∀ j' < 4, ∀ i' < j', (shareArray 4 [0x05, 0x00, 0x07, 0x00, 0x07, 0x00, 0x05, 0x00]).shareX i' =
      (shareArray 4 [0x05, 0x00, 0x07, 0x00, 0x07, 0x00, 0x05, 0x00]).shareX j' → 0 < i' ∨ (0 = i' ∧ 3 ≤ j') := by decide +kernel
  exact all j' hj i' hij he

theorem witness_indicesGood : IndicesGood (twoShares []) 2 := by
  have all : ∀ j < 2, ∀ i < j, (twoShares []).shareX i ≠ (twoShares []).shareX j := by decide +kernel
  exact ⟨by decide +kernel, fun i j hij hj => all j hj i hij⟩

theorem witness_LinterpFaultsInOrderElseInterpolates :
    (running [] [(.mlen, 0)] []).mlen = 0 ∧ ((running [] [] []).mlen ≠ 0 ∧ (running [] [] []).nsh = 0) ∧
      ((twoShares [(1, 1)]).mlen ≠ 0 ∧ (twoShares [(1, 1)]).nsh ≠ 0 ∧ (twoShares [(1, 1)]).mlen ≤ (twoShares [(1, 1)]).readReg 1) ∧
      (twoShares []).mlen ≠ 0 ∧ (twoShares []).nsh ≠ 0 ∧ (twoShares []).readReg 1 < (twoShares []).mlen ∧
      IndicesGood (twoShares []) (twoShares []).nsh.toNat :=
  ⟨by decide +kernel, by decide +kernel, by decide +kernel, by decide +kernel, by decide +kernel, by decide +kernel, witness_indicesGood⟩

/-- The clauses of LINTERP and COMBINE for a zero and for a duplicate index. -/
theorem witness_indexFaults :
    (let s := shareArray 3 [0x01, 0x76, 0x00, 0x92, 0x00, 0xCE];
      s.mlen ≠ 0 ∧ s.nsh ≠ 0 ∧ s.readReg 1 < s.mlen ∧ s.nsh.toNat = 3) ∧
    (let s := shareArray 4 [0x05, 0x00, 0x07, 0x00, 0x07, 0x00, 0x05, 0x00];
      s.mlen ≠ 0 ∧ s.nsh ≠ 0 ∧ s.readReg 1 < s.mlen ∧ s.nsh.toNat = 4) := by decide +kernel

theorem witness_CombineWritesTheWholeSecretOrFaults :
    (twoShares []).mlen ≠ 0 ∧ (twoShares []).nsh ≠ 0 ∧ IndicesGood (twoShares []) (twoShares []).nsh.toNat :=
  ⟨by decide +kernel, by decide +kernel, witness_indicesGood⟩

theorem witness_CombineEqualsALoopOfLinterp :
    (twoShares []).mlen ≠ 0 ∧ (twoShares []).nsh ≠ 0 ∧ IndicesGood (twoShares []) (twoShares []).nsh.toNat ∧
      (twoShares []).readReg 1 < (twoShares []).mlen :=
  ⟨by decide +kernel, by decide +kernel, witness_indicesGood, by decide +kernel⟩

/-- The two shares of section 1.1 are shares of `2A + 5C x`, threshold 2. -/
theorem witness_CombineRecoversTheSecretOfASplit :
    (twoShares []).mlen ≠ 0 ∧ 1 ≤ 2 ∧ 2 ≤ (twoShares []).nsh.toNat ∧ IndicesGood (twoShares []) (twoShares []).nsh.toNat ∧
      (∀ p < (twoShares []).mlen.toNat, ([0x2A, 0x5C] : List Byte).length = 2) ∧
      (∀ p < (twoShares []).mlen.toNat, ∀ i < (twoShares []).nsh.toNat, (twoShares []).shareY i p = polyEval [0x2A, 0x5C] ((twoShares []).shareX i)) :=
  ⟨by decide +kernel, by decide, by decide +kernel, witness_indicesGood, fun _ _ => rfl, by decide +kernel⟩

theorem witness_CeqWritesTheOutcome :
    (running [(1, 0x2A)] [] []).readReg 2 = (running [(1, 0x2A)] [] []).readReg 3 ∧
      (running [(1, 0x2A)] [] []).readReg 1 ≠ (running [(1, 0x2A)] [] []).readReg 2 := by decide +kernel

theorem witness_CselTakesTheSelectedValue :
    (running [(3, 0x80)] [] []).readReg 3 ≠ 0x00 ∧ (running [(3, 0x80)] [] []).readReg 4 = 0x00 := by decide +kernel

/-- V-MEQ-2 and V-MEQ-1, and length 0. -/
theorem witness_MeqComparesTheWholeSequences :
    let s := running [(1, 3), (2, 2)] [(.abase, 0x0500), (.bbase, 0x0600)] [(0x0500, [0x11, 0x22, 0x33]), (0x0600, [0x11, 0x22, 0x34])]
    (∀ j < (s.readReg 2).toNat, s.memRead (s.abase.toNat + j) = s.memRead (s.bbase.toNat + j)) ∧
      (∃ j < (s.readReg 1).toNat, s.memRead (s.abase.toNat + j) ≠ s.memRead (s.bbase.toNat + j)) ∧ s.readReg 0 = 0 :=
  ⟨by decide +kernel, ⟨2, by decide +kernel⟩, by decide +kernel⟩

theorem witness_MzeroClearsTheSequence :
    0 < ((running [(1, 1)] [] []).readReg 1).toNat ∧ (running [(1, 1)] [] []).readReg 0 = 0 := by decide +kernel

theorem witness_LdiLoadsTheConstant :
    ((1 : RegNum) ≠ 0 ∨ (0 : Byte) ≠ 0) ∧ ((0 : RegNum) ≠ 0 ∨ (1 : Byte) ≠ 0) := by decide

theorem witness_MovCopiesTheRegister :
    (7 : RegNum) = 7 := by decide

theorem witness_LdbxLoadsTheIndexedByte :
    (0xFFFF : Half) = 0xFFFF ∧ (running [(4, 0x02)] [] []).readReg 4 = 0x02 := by decide +kernel

theorem witness_StbxStoresTheByteIndexed :
    (4 : RegNum) = 4 := by decide

theorem witness_IaddAddsModulo256 :
    (running [(1, 0xFF), (2, 0x01)] [] []).readReg 1 = 0xFF ∧ (running [(1, 0xFF), (2, 0x01)] [] []).readReg 2 = 0x01 ∧
      (running [(1, 0x80)] [] []).readReg 1 = 0x80 := by decide +kernel

theorem witness_IaddiAddsTheConstantModulo256 :
    (0xFF : Byte) = 0xFF ∧ (0 : Byte) = 0 := by decide

theorem witness_JmpGoesToTheTarget :
    (State.reset.withFetchWord 32 0x50000000).runState = .run ∧
      decode ((State.reset.withFetchWord 32 0x50000000).readImem (State.reset.withFetchWord 32 0x50000000).pc) =
        .ok (.jmp (State.reset.withFetchWord 32 0x50000000).pc) := by decide +kernel

theorem witness_LoopCountsDownAndBranches :
    (running [] [(.lc, 255)] []).lc ≠ 0 ∧ (running [] [] []).lc = 0 ∧ 254 < (running [] [(.lc, 255)] []).lc.toNat := by decide +kernel

end Sys2Proof.Tests
end

section
/-! PROOFS. What an instruction, a step and a transaction keep of the state (10_state.md), said once from `exec_cases` and `step_cases`, and what the
decoder and the host make of a control-register number. -/

namespace Sys2Proof.Machine

/-! ## The fault registers -/

/-- Outside `FAULTED` the record agrees with the run state exactly when the three fault registers are zero. -/
theorem State.faultRecord_of_ne_faulted (s : State) (h : s.runState ≠ .faulted) :
    s.faultRecord = true ↔ s.cause = 0 ∧ s.epc = 0 ∧ s.finfo = 0 := by
  cases hr : s.runState with
  | faulted => exact absurd hr h
  | idle | run | halted => simp [State.faultRecord, hr, and_assoc]

@[simp] theorem State.faultRecord_raise (s : State) (c : Cause) (info : Half) :
    (s.raise c info).faultRecord = faultInfoLegal c.code info := by simp [State.faultRecord]

/-- A legal fault keeps the invariant, whatever the fault registers held before. -/
theorem State.inv_raise (s : State) (c : Cause) (info : Half) (hm : s.dmem.wf = true) (hl : faultInfoLegal c.code info = true) :
    (s.raise c info).Inv := ⟨hm, by simpa using hl⟩

theorem Cause.code_ne_zero (c : Cause) : c.code ≠ 0 := by cases c <;> decide

theorem State.raise_faults (s : State) (c : Cause) (info : Half) : Faults s (s.raise c info) c.code info := by
  obtain ⟨t, ht, hf⟩ := s.fail_spec c info
  cases ht
  exact hf

/-! ## What every instruction keeps -/

/-- An instruction that raises nothing keeps the fault registers, and the run state too unless it is HALT. -/
theorem EndsIn.raises_or_keeps {i : Instr} {s t : State} (h : EndsIn i s t) :
    (∃ c info, faultInfoLegal c.code info = true ∧ t = s.raise c info) ∨
    (t.cause = s.cause ∧ t.epc = s.epc ∧ t.finfo = s.finfo ∧ (t.runState = s.runState ∨ i = .halt ∧ t.runState = .halted)) := by
  cases h
  case faults c info hl hr ht => exact .inl ⟨c, info, hl, ht⟩
  case halts hi ht => exact .inr (by simp [ht, hi])
  all_goals
    rename_i ht
    exact .inr (by simp [ht])

/-- No instruction writes instruction memory (10_state.md R45). -/
theorem EndsIn.imem_eq {i : Instr} {s t : State} (h : EndsIn i s t) : t.imem = s.imem := by
  cases h <;> rename_i ht <;> simp [ht]

theorem EndsIn.dmem_wf {i : Instr} {s t : State} (h : EndsIn i s t) (hm : s.dmem.wf = true) : t.dmem.wf = true := by
  cases h
  case writesBytes a vs hd hl ht => simpa [ht] using s.memWriteBytes_wf vs a hm
  all_goals
    rename_i ht
    simpa [ht] using hm

/-- Executed in `RUN`, every instruction keeps the invariant. -/
theorem EndsIn.inv {i : Instr} {s t : State} (h : EndsIn i s t) (hr : s.runState = .run) (hi : s.Inv) : t.Inv := by
  obtain ⟨hm, hf⟩ := hi
  rcases h.raises_or_keeps with ⟨c, info, hl, rfl⟩ | ⟨hc, he, hn, hrun⟩
  · exact s.inv_raise c info hm hl
  · have hs := (s.faultRecord_of_ne_faulted (by simp [hr])).mp hf
    have ht : t.runState ≠ .faulted := by rcases hrun with hrun | ⟨-, hrun⟩ <;> simp [hrun, hr]
    exact ⟨h.dmem_wf hm, (t.faultRecord_of_ne_faulted ht).mpr (by rwa [hc, he, hn])⟩

/-- A step in `RUN` on a word that decodes is `exec` of its instruction. -/
theorem step_of_decode (s : State) (i : Instr) (hr : s.runState = .run) (hd : decode s.fetch = .ok i) : step s = exec i s := by
  simp [step, hr, hd]

/-! ## The frame of an instruction -/

theorem SameDmemOutside.of_dmem_eq {s t : State} (h : t.dmem = s.dmem) (base len : Nat) : SameDmemOutside base len s t :=
  fun a _ => s.memRead_of_dmem_eq t h a

/-- A general register an instruction does not name as its destination is kept, faults included. -/
theorem EndsIn.readReg_eq {i : Instr} {s t : State} (h : EndsIn i s t) {r : RegNum} (hr : destReg i ≠ some r) :
    t.readReg r = s.readReg r := by
  cases h
  case writesReg rd v hd ht =>
    have hne : r ≠ rd := fun he => hr (he ▸ hd)
    simp [ht, State.readReg_writeReg, hne]
  all_goals
    rename_i ht
    simp [ht]

/-- A control register an instruction that completes does not name is kept. -/
theorem EndsIn.readCsr_eq {i : Instr} {s t : State} (h : EndsIn i s t) (hf : t.runState ≠ .faulted) {c : Csr}
    (hc : destCsr i ≠ some c) : t.readCsr c = s.readCsr c := by
  cases h
  case writesCsr c' v hd hw ht =>
    have hne : c ≠ c' := fun he => hc (he ▸ hd)
    simp [ht, State.readCsr_writeCsr, hne]
  case loops target hi ht =>
    have hne : c ≠ .lc := fun he => hc (by rw [hi, he]; rfl)
    simp [ht, State.readCsr_writeCsr, hne]
  case halts hi ht =>
    have hne : c ≠ .status := fun he => hc (by rw [hi, he]; rfl)
    simp [ht, State.readCsr_halt, hne]
  case faults k info hl hr ht => exact absurd (by simp [ht]) hf
  all_goals
    rename_i ht
    simp [ht]

/-- Data memory is kept outside the bytes an instruction stores, faults included. -/
theorem EndsIn.sameDmemOutside {i : Instr} {s t : State} (h : EndsIn i s t) :
    SameDmemOutside (destBytes s i).1 (destBytes s i).2 s t := by
  cases h
  case writesBytes a vs hd hl ht =>
    rw [hd, ht]
    exact fun b hb => State.memRead_memWriteBytes_of_ne vs s a b hb
  all_goals
    rename_i ht
    exact .of_dmem_eq (by simp [ht]) _ _

theorem step_imem_eq (s t : State) (h : step s = .next t) : t.imem = s.imem := by
  rcases step_cases s t h with ⟨-, rfl⟩ | ⟨-, i, -, hx⟩ | ⟨-, -, rfl⟩
  · rfl
  · exact (exec_cases i s t hx).imem_eq
  · rfl

/-! ## What a transaction may do -/

/-- `t` is what the transaction `tr` leaves of `s`, by the operation that has its effect. -/
inductive HostEffect (tr : Transaction) (s t : State) : Prop where
  | keeps (ht : t = s)
  | resets (htr : tr = .reset) (ht : t = s.hostReset)
  | starts (htr : tr = .start) (hr : s.runState = .idle ∨ s.runState = .halted) (ht : t = s.hostStart)
  | writesImem (i : BitVec 8) (w : Word) (ht : t = s.writeImem i w)
  | writesDmem (a : Nat) (v : Byte) (ht : t = s.memWrite a v)
  | writesCsr (c : Csr) (v : Half) (hc : c.writable = true) (ht : t = s.writeCsr c v)
  | writesReg (r : RegNum) (v : Byte) (ht : t = s.writeReg r v)

/-- In `RUN` a transaction is a reset or has no effect (60_exceptions.md R263). -/
theorem State.transactRunning_effect (s : State) (tr : Transaction) : HostEffect tr s (s.transactRunning tr).1 := by
  cases tr with
  | reset => exact .resets rfl rfl
  | readCsr c => cases c <;> exact .keeps rfl
  | _ => exact .keeps rfl

theorem State.hostWriteCsr_effect (s : State) (c : Nat) (v : Half) : HostEffect (.writeCsr c v) s (s.hostWriteCsr c v).1 := by
  unfold State.hostWriteCsr
  split
  · rename_i r hc
    split
    · rename_i h
      exact .writesCsr r v (Bool.and_eq_true_iff.mp h).1 rfl
    · exact .keeps rfl
  · exact .keeps rfl

theorem State.hostReadCsr_fst (s : State) (c : Nat) : (s.hostReadCsr c).1 = s := by
  unfold State.hostReadCsr
  split <;> rfl

theorem State.transactStopped_effect (s : State) (hr : s.runState ≠ .run) (tr : Transaction) :
    HostEffect tr s (s.transactStopped tr).1 := by
  cases tr <;> simp only [State.transactStopped]
  case reset => exact .resets rfl rfl
  case writeImem i w => split <;> [exact .writesImem _ w rfl; exact .keeps rfl]
  case writeDmem a v => split <;> [exact .writesDmem a v rfl; exact .keeps rfl]
  case writeReg i v => split <;> [exact .writesReg _ v rfl; exact .keeps rfl]
  case writeCsr c v => exact s.hostWriteCsr_effect c v
  case readCsr c => exact .keeps (s.hostReadCsr_fst c)
  case start =>
    split
    · exact .keeps rfl
    · exact .starts rfl (by cases h : s.runState <;> simp_all) rfl
  all_goals split <;> exact .keeps rfl

/-- Every way a transaction can change the state, from every state. -/
theorem State.transact_effect (s : State) (tr : Transaction) : HostEffect tr s (s.transact tr).1 := by
  by_cases hr : s.runState = .run
  · rw [s.transact_of_run hr]
    exact s.transactRunning_effect tr
  · rw [s.transact_of_ne_run hr]
    exact s.transactStopped_effect hr tr

/-! ## `pc` -/

theorem exec_loop_falls (target : Byte) (s : State) (h : s.lc = 0) : exec (.loop target) s = .next s.nextPc := if_pos h
theorem exec_loop_taken (target : Byte) (s : State) (h : s.lc ≠ 0) :
    exec (.loop target) s = .next ((s.writeCsr .lc ((s.lc - 1).setWidth 16)).jumpTo target) := if_neg h

/-- An instruction other than HALT, JMP and a taken LOOP that does not fault goes on to the next index (10_state.md R26). -/
theorem exec_pc_of_goes_on {i : Instr} {s t : State} (h : exec i s = .next t) (hf : t.runState ≠ .faulted) (hh : i ≠ .halt)
    (hj : ∀ target, i ≠ .jmp target) (hl : ∀ target, i = .loop target → s.lc = 0) : t.pc = s.pc + 1 := by
  cases exec_cases i s t h
  case halts hi ht => exact absurd hi hh
  case jumps target hi ht => exact absurd hi (hj target)
  case faults c info hl hr ht => exact absurd (by simp [ht]) hf
  case loops target hi ht =>
    subst hi
    rw [exec_loop_falls target s (hl target rfl)] at h
    cases h
    rfl
  all_goals
    rename_i ht
    simp [ht]

/-- A fault leaves `pc` (60_exceptions.md R246). -/
theorem exec_pc_of_faulted {i : Instr} {s t : State} (hr : s.runState = .run) (h : exec i s = .next t) (hf : t.runState = .faulted) :
    t.pc = s.pc := by
  rcases (exec_cases i s t h).raises_or_keeps with ⟨c, info, -, rfl⟩ | ⟨-, -, -, hk | ⟨-, hk⟩⟩
  · rfl
  · simp [hk, hr] at hf
  · simp [hk] at hf

theorem State.transact_pc (s : State) (tr : Transaction) (hr : tr ≠ .reset) (hs : tr ≠ .start) : (s.transact tr).1.pc = s.pc := by
  cases s.transact_effect tr
  case resets htr ht => exact absurd htr hr
  case starts htr _ ht => exact absurd htr hs
  all_goals
    rename_i ht
    simp [ht]

theorem State.transact_start (s : State) (h : s.runState = .idle ∨ s.runState = .halted) : s.transact .start = (s.hostStart, .done) := by
  rcases h with h | h <;> simp [State.transact, State.transactStopped, h]

/-! ## The run state -/

/-- The only ways a step changes the run state (10_state.md R30). -/
theorem step_runState_change {s t : State} (h : step s = .next t) (hne : t.runState ≠ s.runState) :
    s.runState = .run ∧ ((t.runState = .halted ∧ decode (s.readImem s.pc) = .ok .halt) ∨
      (t.runState = .faulted ∧ ∃ code info, code ≠ 0 ∧ Faults s t code info)) := by
  rcases step_cases s t h with ⟨-, rfl⟩ | ⟨hr, i, hd, hx⟩ | ⟨hr, -, rfl⟩
  · exact absurd rfl hne
  · rcases (exec_cases i s t hx).raises_or_keeps with ⟨c, info, -, rfl⟩ | ⟨-, -, -, hk | ⟨rfl, hk⟩⟩
    · exact ⟨hr, .inr ⟨rfl, c.code, info, c.code_ne_zero, s.raise_faults c info⟩⟩
    · exact absurd hk hne
    · exact ⟨hr, .inl ⟨hk, hd⟩⟩
  · exact ⟨hr, .inr ⟨rfl, _, 0, Cause.code_ne_zero _, s.raise_faults _ 0⟩⟩

/-- The only ways a transaction changes the run state (10_state.md R30). -/
theorem State.transact_runState_change (s : State) (tr : Transaction) (hne : (s.transact tr).1.runState ≠ s.runState) :
    (tr = .reset ∧ (s.transact tr).1.runState = .idle) ∨
      (tr = .start ∧ (s.runState = .idle ∨ s.runState = .halted) ∧ (s.transact tr).1.runState = .run) := by
  cases s.transact_effect tr
  case resets htr ht => exact .inl ⟨htr, by rw [ht]; rfl⟩
  case starts htr hr ht => exact .inr ⟨htr, hr, by rw [ht]; rfl⟩
  all_goals
    rename_i ht
    exact absurd (by simp [ht]) hne

/-! ## Control-register words and accesses: the number decides (30_encoding.md R96, 10_state.md R42) -/

/-- The word with no operand bit set is the match of its row (30_encoding.md R94). -/
theorem formatI_zero (op : BitVec 8) : formatI op 0#4 0#4 0#16 = op ++ 0#24 := by
  rw [formatI, BitVec.append_assoc, BitVec.append_assoc]
  rfl

theorem decode_csrrWord (rd n : BitVec 4) : decode (0x05#8 ++ rd ++ n ++ 0#16) = decodeCsrRead n fun c => .csrr rd c := by
  change decode (formatI 0x05#8 rd n 0#16) = _
  simp [decode, decodeRow, formatI_mask_rd_ra, formatI_zero]

theorem decode_csrwiWord (n : BitVec 4) (imm16 : Half) :
    decode (0x03#8 ++ n ++ 0#4 ++ imm16) = decodeCsrWrite n fun c => .csrwi c imm16 := by
  change decode (formatI 0x03#8 n 0#4 imm16) = _
  simp [decode, decodeRow, formatI_mask_rd_imm16, formatI_zero]

theorem decode_csrwWord (n ra : BitVec 4) : decode (0x04#8 ++ n ++ ra ++ 0#16) = decodeCsrWrite n fun c => .csrw c ra := by
  change decode (formatI 0x04#8 n ra 0#16) = _
  simp [decode, decodeRow, formatI_mask_rd_ra, formatI_zero]

theorem decodeCsrRead_number (c : Csr) (k : Csr → Instr) : decodeCsrRead c.number k = .ok (k c) := by
  simp [decodeCsrRead]

theorem decodeCsrWrite_number (c : Csr) (k : Csr → Instr) :
    decodeCsrWrite c.number k = if c.writable then .ok (k c) else .error .csrNumber := by
  have hw := writable_iff_number c
  by_cases h : c.number < 4#4
  · rw [decodeCsrWrite, if_pos h, if_neg (by simp [hw, h])]
  · rw [decodeCsrWrite, if_neg h, if_pos (hw.mpr h), decodeCsrRead_number]

/-- A reserved number is refused by both number tests (10_state.md R42). -/
theorem decodeCsrRead_reserved {n : BitVec 4} (h : csrOfNumber n = none) (k : Csr → Instr) : decodeCsrRead n k = .error .csrNumber := by
  simp [decodeCsrRead, h]

theorem decodeCsrWrite_reserved {n : BitVec 4} (h : csrOfNumber n = none) (k : Csr → Instr) :
    decodeCsrWrite n k = .error .csrNumber := by
  simp [decodeCsrWrite, decodeCsrRead_reserved h]

theorem State.transact_readCsr (s : State) (hr : s.runState ≠ .run) {n : Nat} {c : Csr} (hc : csrOfIndex n = some c) :
    s.transact (.readCsr n) = (s, .half (s.readCsr c)) := by
  simp [s.transact_of_ne_run hr, State.transactStopped, State.hostReadCsr, hc]

theorem State.transact_writeCsr (s : State) (hr : s.runState ≠ .run) {n : Nat} {c : Csr} (hc : csrOfIndex n = some c) (v : Half)
    (hv : csrFits c v = true) : s.transact (.writeCsr n v) = if c.writable then (s.writeCsr c v, .done) else (s, .refused) := by
  simp [s.transact_of_ne_run hr, State.transactStopped, State.hostWriteCsr, State.refuse, hc, hv]

/-- The host writes no control register that the number does not name or that is read-only, in any run state (60_exceptions.md R267). -/
theorem State.transact_writeCsr_refused (s : State) {n : Nat} (hn : ∀ c, csrOfIndex n = some c → c.writable = false) (v : Half) :
    s.transact (.writeCsr n v) = (s, .refused) := by
  by_cases hr : s.runState = .run
  · rw [s.transact_of_run hr]
    rfl
  · rw [s.transact_of_ne_run hr]
    cases hc : csrOfIndex n with
    | none => simp [State.transactStopped, State.hostWriteCsr, State.refuse, hc]
    | some c => simp [State.transactStopped, State.hostWriteCsr, State.refuse, hc, hn c hc]

/-- The host reads no control register of a number other than 0 that names none, in any run state (60_exceptions.md R263, R266). -/
theorem State.transact_readCsr_refused (s : State) {n : Nat} (h0 : n ≠ 0) (hn : csrOfIndex n = none) :
    s.transact (.readCsr n) = (s, .refused) := by
  obtain ⟨m, rfl⟩ := Nat.exists_eq_succ_of_ne_zero h0
  by_cases hr : s.runState = .run
  · rw [s.transact_of_run hr]
    rfl
  · simp [s.transact_of_ne_run hr, State.transactStopped, State.hostReadCsr, State.refuse, hn]

/-- A control register of 8 bits reads as a byte (10_state.md R28). -/
theorem State.readCsr_lt_of_narrow (s : State) (c : Csr) (h : csrWide c = false) : s.readCsr c < 256 := by
  have byte (b : Byte) : b.setWidth 16 < 256#16 := by
    have := b.isLt
    simp only [BitVec.lt_def, BitVec.toNat_setWidth, BitVec.toNat_ofNat]
    omega
  cases c
  case finfo | sbase | obase | cbase | abase | bbase => cases h
  all_goals exact byte _

theorem csrFits_of_lt {c : Csr} {v : Half} (h : csrWide c = true ∨ v < 256) : csrFits c v = true :=
  (csrFits_iff c v).mpr (h.imp_right fun hv => by bv_omega)

/-- The reset value of every row of 10_state.md R28. -/
theorem readCsr_reset_of_mem_csrTable {n : BitVec 4} {c : Csr} {wide writable : Bool} {reset : Half}
    (h : (n, c, wide, writable, reset) ∈ csrTable) : State.reset.readCsr c = reset := by
  have all : ∀ x ∈ csrTable, State.reset.readCsr x.2.1 = x.2.2.2.2 := by decide
  exact all _ h

/-- Numbers 14 and 15 name no control register, in a word or to the host (10_state.md R42). -/
theorem csr_reserved {n : BitVec 4} (h : n = 14 ∨ n = 15) : csrOfNumber n = none ∧ csrOfIndex n.toNat = none ∧ n.toNat ≠ 0 := by
  rcases h with rfl | rfl <;> decide

/-! ## `STATUS` -/

/-- The output `done` and the byte `STATUS` reads as tell of the same two run states (60_exceptions.md R252). -/
theorem State.done_iff_status (s : State) : s.done = true ↔ s.readCsr .status = 2 ∨ s.readCsr .status = 3 := by
  cases h : s.runState <;> simp [State.done, State.readCsr, RunState.status, h]

/-- CSRR of `STATUS` reads `0x01`, since only `RUN` executes it (10_state.md R30). -/
theorem exec_csrr_status (s : State) (rd : RegNum) (hr : s.runState = .run) :
    ∃ t, exec (.csrr rd .status) s = .next t ∧ t.readReg rd = 1 := by
  obtain ⟨t, ht, hv, -⟩ := s.finishReg_spec rd ((s.readCsr .status).setWidth 8)
  exact ⟨t, ht, by simp [hv, State.readCsr, RunState.status, hr]⟩

end Sys2Proof.Machine
end

section
/-! PROOFS. The statements about the state: the invariant, the control registers, the run state, frames and `pc`. -/

namespace Sys2Proof.Machine

/-- Settles O10: what a step does is one of the cases of `step_cases`; an instruction keeps the invariant, and so does a legal fault. -/
theorem stepKeepsTheInvariant : Obligations.StepKeepsTheInvariant := by
  intro s t hi h
  have hm : s.dmem.wf = true := hi.1
  rcases step_cases s t h with ⟨-, rfl⟩ | ⟨hr, i, -, hx⟩ | ⟨-, -, rfl⟩
  · exact hi
  · exact (exec_cases i s t hx).inv hr hi
  · exact s.inv_raise _ _ hm (by decide)

/-- Settles O5: a row of the table is its register's own number, width and access, and the number decides every decoding and host access. -/
theorem controlRegisterFileIsTheTable : Obligations.ControlRegisterFileIsTheTable := by
  refine ⟨fun n c wide writable reset hmem => ?_, fun n hn => ?_⟩
  · have hreset := readCsr_reset_of_mem_csrTable hmem
    obtain ⟨rfl, rfl, rfl, hi⟩ := csrTable_spec n c wide writable reset hmem
    exact ⟨hreset, fun s hw => s.readCsr_lt_of_narrow c hw,
      fun rd => (decode_csrrWord rd _).trans (decodeCsrRead_number c _),
      fun imm16 => (decode_csrwiWord _ imm16).trans (decodeCsrWrite_number c _),
      fun ra => (decode_csrwWord _ ra).trans (decodeCsrWrite_number c _),
      fun s hr => s.transact_readCsr hr hi,
      fun s v hr hv => s.transact_writeCsr hr hi v (csrFits_of_lt hv),
      fun s v hw hv => s.readCsr_writeCsr_self c v hw (csrFits_of_lt hv)⟩
  · obtain ⟨hnum, hidx, h0⟩ := csr_reserved hn
    exact ⟨fun rd => (decode_csrrWord rd n).trans (decodeCsrRead_reserved hnum _),
      fun imm16 => (decode_csrwiWord n imm16).trans (decodeCsrWrite_reserved hnum _),
      fun ra => (decode_csrwWord n ra).trans (decodeCsrWrite_reserved hnum _),
      fun s => s.transact_readCsr_refused h0 hidx,
      fun s v => s.transact_writeCsr_refused (fun c hc => by simp [hidx] at hc) v⟩

/-- Settles O13: the changes are read off `step_cases` and `State.transact_effect`, the refusals off the number 0 of a read-only register. -/
theorem runStateChangesOnlyAsListed : Obligations.RunStateChangesOnlyAsListed := by
  refine ⟨fun s => ?_, fun s t => step_runState_change, State.transact_runState_change, fun s v => ?_, fun imm16 ra => ⟨?_, ?_⟩,
    exec_csrr_status, State.done_iff_status⟩
  · cases h : s.runState <;> simp [State.readCsr, RunState.status, h]
  · exact s.transact_writeCsr_refused (fun c hc => by cases hc; rfl) v
  · exact (decode_csrwiWord _ imm16).trans (decodeCsrWrite_number .status _)
  · exact (decode_csrwWord _ ra).trans (decodeCsrWrite_number .status _)

/-- Settles O16: each part of the frame is read off the way the instruction ends. -/
theorem instructionsChangeOnlyTheirDestinations : Obligations.InstructionsChangeOnlyTheirDestinations := by
  refine ⟨fun i s t h hf => ?_, step_imem_eq⟩
  have he := exec_cases i s t h
  exact ⟨fun r hr => he.readReg_eq hr, fun c hc => he.readCsr_eq hf hc, he.sameDmemOutside, fun n => s.readImem_congr t he.imem_eq n⟩

/-- Settles O17: faults and instructions that go on by `exec_cases`, HALT, JMP and a taken LOOP by their meanings, the host by `State.transact_effect`. -/
theorem pcAdvancesModulo256OrGoesToTheTarget : Obligations.PcAdvancesModulo256OrGoesToTheTarget := by
  refine ⟨fun i s t hr h => ⟨exec_pc_of_faulted hr h, ?_, ?_, ?_⟩, State.transact_pc, fun s hs => by simp [s.transact_start hs]⟩
  · rintro rfl
    cases h
    rfl
  · rintro target (rfl | ⟨rfl, hl⟩)
    · cases h
      rfl
    · rw [exec_loop_taken target s hl] at h
      cases h
      rfl
  · intro hf hh hj hl
    rw [exec_pc_of_goes_on h hf hh hj hl]
    simp [BitVec.toNat_add]

/-- Settles O6: `IMEM[pc]` is what `step` fetches. -/
theorem stepRunsTheDecodedInstruction : Obligations.StepRunsTheDecodedInstruction := step_of_decode

/-- Settles O11: an empty data memory is canonical, and the fault registers are reset to zero. -/
theorem resetMeetsTheInvariant : Obligations.ResetMeetsTheInvariant :=
  ⟨State.reset_dmem_wf, by decide⟩

end Sys2Proof.Machine
end

section
/-! PROOFS. The loads and stores of 45_data_movement.md through `exec`, and read after write in data memory (20_memory.md). -/

namespace Sys2Proof.Machine

/-- All that STB does (45_data_movement.md R204). -/
theorem exec_stb_spec (s : State) (rs : RegNum) (a : Half) :
    ∃ t, exec (.stb rs a) s = .next t ∧ WritesBytes s t a.toNat [s.readReg rs] :=
  ⟨_, rfl, s.storeByte_spec a.toNat (s.readReg rs)⟩

/-- All that LDB does (45_data_movement.md R202). -/
theorem exec_ldb_spec (s : State) (rd : RegNum) (a : Half) :
    ∃ t, exec (.ldb rd a) s = .next t ∧ WritesReg s t rd (s.memRead a.toNat) :=
  s.finishReg_spec rd (s.memRead a.toNat)

/-- A 16-bit address is its own reduction mod 65536 (20_memory.md R61). -/
@[simp] theorem wrapAddr_toNat (a : Half) : wrapAddr a.toNat = a.toNat := wrapAddr_of_lt a.toNat a.isLt

/-- The byte written is read back at its own address. -/
theorem WritesBytes.memRead_self {s t : State} {a : Nat} {v : Byte} (h : WritesBytes s t a [v]) : t.memRead a = v := by
  obtain ⟨hwritten, -⟩ := h
  exact hwritten 0 (by simp)

/-- A byte written leaves what every other 16-bit address holds. -/
theorem WritesBytes.memRead_of_ne {s t : State} {a b : Half} {v : Byte} (h : WritesBytes s t a.toNat [v]) (hab : a ≠ b) :
    t.memRead b.toNat = s.memRead b.toNat := by
  obtain ⟨-, -, hframe, -⟩ := h
  refine hframe b.toNat fun j hj heq => hab ?_
  obtain rfl : j = 0 := by simpa using hj
  exact BitVec.eq_of_toNat_eq (by simpa using heq.symm)

end Sys2Proof.Machine
end

section
/-! PROOFS. The statement about data memory: a load reads the latest store. -/

namespace Sys2Proof.Machine

/-- Settles O18: LDB reads the memory STB left, and STB writes its own address and no other. -/
theorem loadAfterStoreReadsTheLatestWrite : Obligations.LoadAfterStoreReadsTheLatestWrite := by
  intro s rs rd a b
  obtain ⟨t, hstore, hmem⟩ := exec_stb_spec s rs a
  obtain ⟨u, hload, hreg, -⟩ := exec_ldb_spec t rd b
  refine ⟨t, u, hstore, hload, fun hab => ?_, fun hab => ?_⟩
  · rw [hreg, ← hab]
    exact hmem.memRead_self
  · rw [hreg]
    exact hmem.memRead_of_ne hab

end Sys2Proof.Machine
end

section
/-! PROOFS. The decoder against the encoder and against the opcode table (30_encoding.md R93 to R99), row by row; and that every instruction and
every step answers a next state (R98). -/

namespace Sys2Proof.Machine

/-! ## Words from instructions: the word of an instruction meets its row of the table -/

theorem decodeRow_of_mask {w mask pattern : Word} (h : w &&& mask = pattern) (row : Except IllegalWord Instr) :
    decodeRow w mask pattern row = row := if_pos h

section
open Sys2Proof.Laws.EncodedRow

theorem encode_meets_row (i : Instr) : Statement i := by
  cases i
  exacts [nop, halt, csrwi _ _, csrw _ _, csrr _ _, gfadd _ _ _, gfmul _ _ _, gfinv _ _, gfpow _ _ _, peval _ _, linterp _ _, combine,
    ceq _ _ _, csel _ _ _ _, meq _ _, mzero _, ldi _ _, mov _ _, ldb _ _, ldbx _ _ _, stb _ _, stbx _ _ _, iadd _ _ _, iaddi _ _ _,
    jmp _, loop _]

theorem tableRow_mem_tableMasks (i : Instr) : (opcodeOf i, (tableRow i).1) ∈ tableMasks := by
  cases i <;> simp [opcodeOf, encode, tableRow, tableMasks]

/-- A row's match is its opcode byte with zeros below (30_encoding.md R94). -/
theorem tableRow_match (i : Instr) : (tableRow i).2 = opcodeOf i ++ 0#24 := by
  cases i <;> simp [opcodeOf, encode, tableRow]

end

/-- Decoding undoes encoding: the row's mask test passes and every field reads back; a well-formed instruction passes the number test too. -/
theorem decode_encode {i : Instr} (h : i.wellFormed = true) : decode (encode i) = .ok i := by
  have hrow := encode_meets_row i
  cases i
  case csrwi c imm16 => exact (decode_csrwiWord _ imm16).trans ((decodeCsrWrite_number c _).trans (if_pos h))
  case csrw c ra => exact (decode_csrwWord _ ra).trans ((decodeCsrWrite_number c _).trans (if_pos h))
  case csrr rd c => exact (decode_csrrWord rd _).trans (decodeCsrRead_number c _)
  all_goals
    simp only [decode, encode, fieldOp_formatR, fieldRd_formatR, fieldRa_formatR, fieldRb_formatR, fieldRc_formatR, fieldOp_formatI,
      fieldRd_formatI, fieldRa_formatI, fieldImm16_formatI, fieldImm8_formatI_byteImm]
    exact decodeRow_of_mask hrow _

/-! ## Instructions from words: a row that answers an instruction has dropped no bit of the word -/

/-- A mask that leaves no bit free fixes the whole word. -/
theorem eq_of_fullMask {w pattern : Word} (h : w &&& 0xFFFFFFFF#32 = pattern) : pattern = w := by
  rw [← h]
  exact BitVec.and_allOnes

/-- A row without a number test: its instruction is the answer, and the bits under its mask make up the rest of the word. -/
theorem encodes_of_decodeRow {w mask pattern : Word} {j i : Instr} (h : decodeRow w mask pattern (.ok j) = .ok i)
    (hj : j.wellFormed = true) (hword : w &&& mask = pattern → encode j = w) : i.wellFormed = true ∧ encode i = w := by
  obtain ⟨hmask, hi⟩ := decodeRow_ok _ _ _ _ _ h
  cases hi
  exact ⟨hj, hword hmask⟩

theorem encode_of_decode {w : Word} {i : Instr} (h : decode w = .ok i) : i.wellFormed = true ∧ encode i = w := by
  simp only [decode] at h
  split at h
  · exact encodes_of_decodeRow h rfl eq_of_fullMask
  · exact encodes_of_decodeRow h rfl eq_of_fullMask
  · obtain ⟨hmask, hrow⟩ := decodeRow_ok _ _ _ _ _ h
    obtain ⟨c, hc, hw, rfl⟩ := decodeCsrWrite_ok _ _ _ hrow
    exact ⟨hw, by rw [encode, hc]; exact formatI_of_mask_rd_imm16 0x03#8 w hmask⟩
  · obtain ⟨hmask, hrow⟩ := decodeRow_ok _ _ _ _ _ h
    obtain ⟨c, hc, hw, rfl⟩ := decodeCsrWrite_ok _ _ _ hrow
    exact ⟨hw, by rw [encode, hc]; exact formatI_of_mask_rd_ra 0x04#8 w hmask⟩
  · obtain ⟨hmask, hrow⟩ := decodeRow_ok _ _ _ _ _ h
    obtain ⟨c, hc, rfl⟩ := decodeCsrRead_ok _ _ _ hrow
    exact ⟨rfl, by rw [encode, hc]; exact formatI_of_mask_rd_ra 0x05#8 w hmask⟩
  · exact encodes_of_decodeRow h rfl (formatR_of_mask_rd_ra_rb 0x10#8 w)
  · exact encodes_of_decodeRow h rfl (formatR_of_mask_rd_ra_rb 0x11#8 w)
  · exact encodes_of_decodeRow h rfl (formatR_of_mask_rd_ra 0x12#8 w)
  · exact encodes_of_decodeRow h rfl (formatR_of_mask_rd_ra_rb 0x13#8 w)
  · exact encodes_of_decodeRow h rfl (formatR_of_mask_rd_ra 0x20#8 w)
  · exact encodes_of_decodeRow h rfl (formatR_of_mask_rd_ra 0x21#8 w)
  · exact encodes_of_decodeRow h rfl eq_of_fullMask
  · exact encodes_of_decodeRow h rfl (formatR_of_mask_rd_ra_rb 0x30#8 w)
  · exact encodes_of_decodeRow h rfl (formatR_of_mask_rd_ra_rb_rc 0x31#8 w)
  · exact encodes_of_decodeRow h rfl (formatR_of_mask_rd_ra 0x32#8 w)
  · exact encodes_of_decodeRow h rfl (formatR_of_mask_ra 0x33#8 w)
  · exact encodes_of_decodeRow h rfl (formatI_of_mask_rd_imm8 0x40#8 w)
  · exact encodes_of_decodeRow h rfl (formatR_of_mask_rd_ra 0x41#8 w)
  · exact encodes_of_decodeRow h rfl (formatI_of_mask_rd_imm16 0x42#8 w)
  · exact encodes_of_decodeRow h rfl (formatI_of_mask_rd_ra_imm16 0x43#8 w)
  · exact encodes_of_decodeRow h rfl (formatI_of_mask_rd_imm16 0x44#8 w)
  · exact encodes_of_decodeRow h rfl (formatI_of_mask_rd_ra_imm16 0x45#8 w)
  · exact encodes_of_decodeRow h rfl (formatR_of_mask_rd_ra_rb 0x46#8 w)
  · exact encodes_of_decodeRow h rfl (formatI_of_mask_rd_ra_imm8 0x47#8 w)
  · exact encodes_of_decodeRow h rfl (formatI_of_mask_imm8 0x50#8 w)
  · exact encodes_of_decodeRow h rfl (formatI_of_mask_imm8 0x51#8 w)
  · cases h

/-! ## Legal words (30_encoding.md R94, R96): a row of the table and a number its instruction accepts -/

theorem csr_number_le (c : Csr) : c.number ≤ 13 := by cases c <;> decide

theorem csr_le_number_of_writable {c : Csr} (h : c.writable = true) : 4 ≤ c.number :=
  BitVec.not_lt.mp ((writable_iff_number c).mp h)

theorem exists_csr_of_le {n : BitVec 4} (h : n ≤ 13) : ∃ c, csrOfNumber n = some c := by
  have all : ∀ n : BitVec 4, n ≤ 13 → (csrOfNumber n).isSome = true := by decide
  exact Option.isSome_iff_exists.mp (all n h)

theorem decodeCsrRead_of_le {n : BitVec 4} (h : n ≤ 13) (k : Csr → Instr) : ∃ i, decodeCsrRead n k = .ok i := by
  obtain ⟨c, hc⟩ := exists_csr_of_le h
  exact ⟨k c, by simp [decodeCsrRead, hc]⟩

theorem decodeCsrWrite_of_le {n : BitVec 4} (h : 4 ≤ n ∧ n ≤ 13) (k : Csr → Instr) : ∃ i, decodeCsrWrite n k = .ok i := by
  obtain ⟨h4, h13⟩ := h
  have hn : ¬ n < 4#4 := BitVec.not_lt.mpr h4
  rw [decodeCsrWrite, if_neg hn]
  exact decodeCsrRead_of_le h13 k

/-- A word that passes the row's mask test decodes when the row's number test, if it has one, passes too. -/
theorem decodeRow_accepts {w mask pattern : Word} {row : Except IllegalWord Instr} (h : w &&& mask = pattern) (hrow : ∃ i, row = .ok i) :
    ∃ i, decodeRow w mask pattern row = .ok i := by
  rwa [decodeRow_of_mask h]

/-- The one row with opcode byte 05, CSRR, has a control-register number in its `ra` field. -/
theorem fieldRa_encode_of_csrRead {i : Instr} (h : opcodeOf i = 0x05) : ∃ c : Csr, fieldRa (encode i) = c.number := by
  cases i
  case csrr rd c => exact ⟨c, fieldRa_formatI _ _ _ _⟩
  all_goals simp [opcodeOf, encode] at h

/-- The two rows with opcode bytes 03 and 04, CSRWI and CSRW, have in their `rd` field the number of a register that is writable in a
well-formed instruction. -/
theorem fieldRd_encode_of_csrWrite {i : Instr} (h : opcodeOf i = 0x03 ∨ opcodeOf i = 0x04) (hwf : i.wellFormed = true) :
    ∃ c : Csr, fieldRd (encode i) = c.number ∧ c.writable = true := by
  cases i
  case csrwi c imm16 => exact ⟨c, fieldRd_formatI _ _ _ _, hwf⟩
  case csrw c ra => exact ⟨c, fieldRd_formatI _ _ _ _, hwf⟩
  all_goals simp [opcodeOf, encode] at h

theorem legalWord_encode {i : Instr} (h : i.wellFormed = true) : LegalWord (encode i) := by
  refine ⟨_, tableRow_mem_tableMasks i, rfl, (encode_meets_row i).trans (tableRow_match i), fun hop => ?_, fun hop => ?_⟩
  · obtain ⟨c, hc⟩ := fieldRa_encode_of_csrRead hop
    exact hc.trans_le (csr_number_le c)
  · obtain ⟨c, hc, hw⟩ := fieldRd_encode_of_csrWrite hop h
    exact ⟨(csr_le_number_of_writable hw).trans_eq hc.symm, hc.trans_le (csr_number_le c)⟩

/-- The opcode byte selects the row, the mask test passes, and the number test of the three rows that have one. -/
theorem decode_of_legalWord {w : Word} (h : LegalWord w) : ∃ i, decode w = .ok i := by
  obtain ⟨row, hrow, hop, hmask, hread, hwrite⟩ := h
  change row.1 = fieldOp w at hop
  simp only [decode, ← hop]
  fin_cases hrow <;> refine decodeRow_accepts hmask ?_
  · exact ⟨.nop, rfl⟩
  · exact ⟨.halt, rfl⟩
  · exact decodeCsrWrite_of_le (hwrite (.inl rfl)) _
  · exact decodeCsrWrite_of_le (hwrite (.inr rfl)) _
  · exact decodeCsrRead_of_le (hread rfl) _
  all_goals exact ⟨_, rfl⟩

theorem decodes_iff_legalWord (w : Word) : (∃ i, decode w = .ok i) ↔ LegalWord w := by
  refine ⟨?_, decode_of_legalWord⟩
  rintro ⟨i, hi⟩
  obtain ⟨hwf, rfl⟩ := encode_of_decode hi
  exact legalWord_encode hwf

theorem decode_error_iff (w : Word) : (∃ e, decode w = .error e) ↔ ¬ LegalWord w := by
  rw [← decodes_iff_legalWord]
  cases decode w <;> simp

/-! ## The step on a fetched word, and that it always answers (30_encoding.md R98, 60_exceptions.md R240) -/

theorem step_of_ne_run (s : State) (hr : s.runState ≠ .run) : step s = .next s := by
  cases h : s.runState with
  | run => exact absurd h hr
  | idle | halted | faulted => simp [step, h]

theorem step_of_decode_error (s : State) {e : IllegalWord} (hr : s.runState = .run) (hd : decode s.fetch = .error e) :
    step s = s.takeIllegal := by
  simp [step, hr, hd]

/-- Every path of every instruction ends in a next state, the faulting ones included. -/
theorem exec_next (i : Instr) (s : State) : ∃ t, exec i s = .next t := by
  cases i
  case csrwi | csrw | gfinv | peval | loop =>
    simp only [exec, execCsrwi, execCsrw, execGfinv, execPeval, execLoop]
    split_ifs <;> exact ⟨_, rfl⟩
  case linterp | combine =>
    simp only [exec, execLinterp, execCombine]
    split <;> exact ⟨_, rfl⟩
  all_goals exact ⟨_, rfl⟩

end Sys2Proof.Machine
end

section
/-! PROOFS. The statements about the encoding (30_encoding.md): the two round trips, the legal words, and what the engine does with each word. -/

namespace Sys2Proof.Machine

/-- Settles O2: every field of the word reads back what `encode` put there, by `decode_encode`. -/
theorem decodeOfEncodeGivesTheInstruction : Obligations.DecodeOfEncodeGivesTheInstruction := fun _ => decode_encode

/-- Settles O3: the row's mask test fixes every bit that is no operand, by `encode_of_decode`. -/
theorem everyDecodedWordIsTheEncodingOfItsInstruction : Obligations.EveryDecodedWordIsTheEncodingOfItsInstruction :=
  fun _ _ => encode_of_decode

/-- Settles O4: a word that decodes is an encoding, and those are legal; a legal word passes each test of the decoder. The opcode bytes are
counted from the table. -/
theorem decoderAcceptsExactlyTheLegalWords : Obligations.DecoderAcceptsExactlyTheLegalWords :=
  ⟨decodes_iff_legalWord, by decide +kernel⟩

/-- Settles O8: the word decodes exactly when it is legal; if not, the step is the taking of the fault, else `exec`. -/
theorem illegalWordRaisesIllegalInstruction : Obligations.IllegalWordRaisesIllegalInstruction := by
  have unassigned {w : Word} (h : decode w = .error .unassignedOpcode) : ¬ LegalWord w := (decode_error_iff w).mp ⟨_, h⟩
  refine ⟨fun s hr hw => ?_, fun s hr hw => ?_, unassigned rfl, unassigned rfl⟩
  · obtain ⟨e, he⟩ := (decode_error_iff _).mpr hw
    rw [step_of_decode_error s hr he]
    exact s.fail_spec .illegalInstruction 0
  · obtain ⟨i, hi⟩ := decode_of_legalWord hw
    obtain ⟨hwf, -⟩ := encode_of_decode hi
    exact ⟨i, hwf, step_of_decode s i hr hi⟩

/-- Settles O9: in `RUN` the word decodes and its instruction answers, or the fault is taken; otherwise the engine idles. -/
theorem stepAlwaysAnswersANextState : Obligations.StepAlwaysAnswersANextState := by
  intro s
  by_cases hr : s.runState = .run
  · cases hd : decode s.fetch with
    | ok i =>
      rw [step_of_decode s i hr hd]
      exact exec_next i s
    | error e => exact ⟨_, step_of_decode_error s hr hd⟩
  · exact ⟨s, step_of_ne_run s hr⟩

/-- Settles O1: each word is the encoding of its instruction, which decodes back. -/
theorem wordsOfTheSpecDecode : Obligations.WordsOfTheSpecDecode :=
  ⟨decode_encode (i := .nop) rfl, decode_encode (i := .csrwi .lc 0xFF) rfl, decode_encode (i := .csrr 4 .status) rfl,
    decode_encode (i := .gfmul 3 1 2) rfl, decode_encode (i := .peval 2 1) rfl, decode_encode (i := .csel 5 1 2 3) rfl,
    decode_encode (i := .stbx 2 4 0x0300) rfl, decode_encode (i := .loop 0x02) rfl⟩

end Sys2Proof.Machine
end

section
/-! PROOFS. Bytes as residues of polynomials over GF(2) modulo `POLY` (40_gf_arith.md R121, R122): `gf_mul` is the product there, and residues tell
bytes apart, so that a law of rings is a law of `gf_add` and `gf_mul`. -/

namespace Sys2Proof.Machine

open Polynomial

/-! ## The polynomial of a byte, and `POLY` -/

/-- `POLY` as a polynomial over GF(2) (40_gf_arith.md R121). -/
noncomputable def fieldPoly : (ZMod 2)[X] := X ^ 8 + X ^ 4 + X ^ 3 + X + 1

/-- The polynomial of a byte: bit i is the coefficient of x^i (00_scope.md R8). -/
noncomputable def bytePoly (a : Byte) : (ZMod 2)[X] := ∑ i ∈ Finset.range 8, if a.getLsbD i then X ^ i else 0

theorem fieldPoly_degree : fieldPoly.degree = 8 := by
  unfold fieldPoly
  compute_degree!

theorem fieldPoly_monic : fieldPoly.Monic := by
  unfold fieldPoly
  monicity!

theorem bytePoly_coeff (a : Byte) (i : Nat) : (bytePoly a).coeff i = if a.getLsbD i then 1 else 0 := by
  have hterm (j : Nat) : (if a.getLsbD j then (X : (ZMod 2)[X]) ^ j else 0).coeff i = if i = j then (if a.getLsbD i then 1 else 0) else 0 := by
    by_cases hij : i = j
    · subst hij
      cases a.getLsbD i <;> simp
    · cases a.getLsbD j <;> simp [coeff_X_pow, hij]
  simp only [bytePoly, finsetSum_coeff, hterm, Finset.sum_ite_eq, Finset.mem_range]
  by_cases hi : i < 8
  · rw [if_pos hi]
  · rw [if_neg hi, BitVec.getLsbD_of_ge a i (by omega)]
    rfl

theorem bytePoly_injective : Function.Injective bytePoly := by
  intro a b h
  apply BitVec.eq_of_getLsbD_eq
  intro i _
  have hcoeff := congrArg (fun p => p.coeff i) h
  simp only [bytePoly_coeff] at hcoeff
  cases ha : a.getLsbD i <;> cases hb : b.getLsbD i <;> simp [ha, hb] at hcoeff ⊢

/-- Exclusive or is the addition of polynomials over GF(2) (40_gf_arith.md R120). -/
theorem bytePoly_xor (a b : Byte) : bytePoly (a ^^^ b) = bytePoly a + bytePoly b := by
  ext i
  rw [coeff_add, bytePoly_coeff, bytePoly_coeff, bytePoly_coeff, BitVec.getLsbD_xor]
  cases a.getLsbD i <;> cases b.getLsbD i <;> decide

theorem bytePoly_zero : bytePoly 0#8 = 0 := by
  simp [bytePoly]

theorem bytePoly_one : bytePoly 1#8 = 1 := by
  simp [bytePoly]

theorem bytePoly_degree_lt (a : Byte) : (bytePoly a).degree < fieldPoly.degree := by
  rw [fieldPoly_degree]
  refine (degree_lt_iff_coeff_zero _ 8).mpr fun i hi => ?_
  rw [bytePoly_coeff, BitVec.getLsbD_of_ge a i hi]
  rfl

theorem bytePoly_modByMonic (a : Byte) : bytePoly a %ₘ fieldPoly = bytePoly a :=
  (modByMonic_eq_self_iff fieldPoly_monic).mpr (bytePoly_degree_lt a)

/-- A shift multiplies by x, short of the top bit, which it drops. -/
theorem X_mul_bytePoly (a : Byte) : X * bytePoly a = bytePoly (a <<< 1) + if a.getLsbD 7 then X ^ 8 else 0 := by
  have hshift : bytePoly (a <<< 1) = ∑ i ∈ Finset.range 7, if a.getLsbD i then X ^ (i + 1) else 0 := by
    have hbit (i : Nat) (hi : i < 7) : (a <<< 1).getLsbD (i + 1) = a.getLsbD i := by
      rw [BitVec.getLsbD_shiftLeft, decide_eq_true (show i + 1 < 8 by omega)]
      simp
    rw [bytePoly, Finset.sum_range_succ', BitVec.getLsbD_shiftLeft]
    simp only [decide_true, Bool.not_true, zero_lt_one, Bool.and_false, Bool.false_and, Bool.false_eq_true, if_false, add_zero]
    exact Finset.sum_congr rfl fun i hi => by rw [hbit i (Finset.mem_range.mp hi)]
  rw [hshift, bytePoly, Finset.sum_range_succ, mul_add, Finset.mul_sum]
  simp only [mul_ite, mul_zero, ← pow_succ']

/-- `POLY` is x^8 and the low bits that stand for it. -/
theorem fieldPoly_eq : fieldPoly = X ^ 8 + bytePoly Config.polyLow := by
  have hlow : bytePoly Config.polyLow = 1 + X + X ^ 3 + X ^ 4 := by
    simp [bytePoly, Config.polyLow, Finset.sum_range_succ]
  rw [hlow, fieldPoly]
  ring

/-- `gf_xtime` is the multiplication by x, up to the multiple of `POLY` that the top bit calls for (40_gf_arith.md R121). -/
theorem bytePoly_gfXtime (a : Byte) : bytePoly (gfXtime a) = X * bytePoly a + if a.getLsbD 7 then fieldPoly else 0 := by
  rw [gfXtime, bytePoly_xor, X_mul_bytePoly]
  cases a.getLsbD 7
  · simp [bytePoly_zero]
  · rw [if_pos rfl, if_pos rfl, if_pos rfl, fieldPoly_eq, add_assoc, ← add_assoc (X ^ 8), CharTwo.add_self_eq_zero, zero_add]

/-! ## Residues modulo `POLY` -/

/-- The residue class of a byte's polynomial modulo `POLY`. -/
noncomputable def residue (a : Byte) : AdjoinRoot fieldPoly := AdjoinRoot.mk fieldPoly (bytePoly a)

theorem residue_injective : Function.Injective residue := by
  intro a b h
  apply bytePoly_injective
  rw [← bytePoly_modByMonic a, ← bytePoly_modByMonic b]
  exact modByMonic_eq_of_dvd_sub fieldPoly_monic (AdjoinRoot.mk_eq_mk.mp h)

@[simp] theorem residue_zero : residue 0#8 = 0 := by
  rw [residue, bytePoly_zero, map_zero]

@[simp] theorem residue_one : residue 1#8 = 1 := by
  rw [residue, bytePoly_one, map_one]

@[simp] theorem residue_xor (a b : Byte) : residue (a ^^^ b) = residue a + residue b := by
  rw [residue, bytePoly_xor, map_add, residue, residue]

@[simp] theorem residue_gfXtime (a : Byte) : residue (gfXtime a) = AdjoinRoot.root fieldPoly * residue a := by
  have hpoly : AdjoinRoot.mk fieldPoly (if a.getLsbD 7 then fieldPoly else 0) = 0 := by
    cases a.getLsbD 7 <;> simp
  rw [residue, bytePoly_gfXtime, map_add, map_mul, hpoly, add_zero, AdjoinRoot.mk_X, residue]

theorem residue_eq_sum (b : Byte) :
    residue b = ∑ i ∈ Finset.range 8, if b.getLsbD i then AdjoinRoot.root fieldPoly ^ i else 0 := by
  simp only [residue, bytePoly, map_sum, apply_ite (AdjoinRoot.mk fieldPoly), map_pow, AdjoinRoot.mk_X, map_zero]

/-- The loop of `gf_mul` after `k` iterations: t is a·x^k, and p is the product of a with the bits of b below k. -/
theorem residue_gfMul_loop (a b : Byte) (k : Nat) :
    residue ((List.range k).foldl (gfMulStep b) (0, a)).2 = AdjoinRoot.root fieldPoly ^ k * residue a ∧
    residue ((List.range k).foldl (gfMulStep b) (0, a)).1 =
      (∑ i ∈ Finset.range k, if b.getLsbD i then AdjoinRoot.root fieldPoly ^ i else 0) * residue a := by
  induction k with
  | zero => simp
  | succ k ih =>
    obtain ⟨ht, hp⟩ := ih
    rw [List.range_succ, List.foldl_append, Finset.sum_range_succ]
    refine ⟨?_, ?_⟩
    · simp only [List.foldl_cons, List.foldl_nil, gfMulStep, residue_gfXtime, ht]
      ring
    · simp only [List.foldl_cons, List.foldl_nil, gfMulStep]
      cases b.getLsbD k
      · simp only [Bool.false_eq_true, if_false, hp, add_zero]
      · simp only [if_true, residue_xor, hp, ht]
        ring

@[simp] theorem residue_gfMul (a b : Byte) : residue (gfMul a b) = residue a * residue b := by
  obtain ⟨-, hp⟩ := residue_gfMul_loop a b 8
  rw [gfMul, hp, ← residue_eq_sum, mul_comm]

@[simp] theorem residue_gfPow (a : Byte) (n : Nat) : residue (gfPow a n) = residue a ^ n := by
  induction n with
  | zero => simp [gfPow]
  | succ n ih => rw [gfPow, residue_gfMul, ih, pow_succ]

/-- The defining property of `gf_mul`, between polynomials of degree below 8. -/
theorem bytePoly_gfMul (a b : Byte) : bytePoly (gfMul a b) = (bytePoly a * bytePoly b) %ₘ fieldPoly := by
  have hmk : AdjoinRoot.mk fieldPoly (bytePoly (gfMul a b)) = AdjoinRoot.mk fieldPoly (bytePoly a * bytePoly b) := by
    rw [map_mul]
    exact residue_gfMul a b
  rw [← bytePoly_modByMonic (gfMul a b)]
  exact modByMonic_eq_of_dvd_sub fieldPoly_monic (AdjoinRoot.mk_eq_mk.mp hmk)

end Sys2Proof.Machine
end

section
/-! PROOFS. The laws of the field (40_gf_arith.md R123 to R125): those of a ring and of its powers by way of residues, those of the inverse from the
product of each nonzero byte with its `gf_inv`. -/

namespace Sys2Proof.Machine

/-! ## Products and powers -/

theorem gfMul_comm (a b : Byte) : gfMul a b = gfMul b a :=
  residue_injective (by simp only [residue_gfMul, mul_comm])

theorem gfMul_assoc (a b c : Byte) : gfMul (gfMul a b) c = gfMul a (gfMul b c) :=
  residue_injective (by simp only [residue_gfMul, mul_assoc])

theorem gfPow_add (a : Byte) (m n : Nat) : gfPow a (m + n) = gfMul (gfPow a m) (gfPow a n) :=
  residue_injective (by simp only [residue_gfMul, residue_gfPow, pow_add])

theorem gfPow_zero_left {n : Nat} (hn : n ≠ 0) : gfPow 0#8 n = 0#8 :=
  residue_injective (by rw [residue_gfPow, residue_zero, zero_pow hn])

/-! ## The inverse -/

/-- The squarings and products of `gf_inv` make up the power 254. -/
theorem gfInv_eq_gfPow (a : Byte) : gfInv a = gfPow a 254 :=
  residue_injective (by simp only [gfInv, residue_gfMul, residue_gfPow]; ring)

/-- Checked at each of the 255 nonzero bytes. -/
theorem gfMul_gfInv {a : Byte} (h : a ≠ 0#8) : gfMul a (gfInv a) = 1#8 := by
  revert a
  decide +kernel

theorem gfPow_255 {a : Byte} (h : a ≠ 0#8) : gfPow a 255 = 1#8 := by
  rw [gfPow, ← gfInv_eq_gfPow, gfMul_comm]
  exact gfMul_gfInv h

/-- A nonzero factor is cancelled by its inverse. -/
theorem gfMul_gfInv_cancel {a : Byte} (h : a ≠ 0#8) (b : Byte) : gfMul (gfMul a b) (gfInv a) = b := by
  rw [gfMul_comm a b, gfMul_assoc, gfMul_gfInv h, gfMul_one_right]

theorem eq_gfInv_of_gfMul_eq_one {a b : Byte} (h : a ≠ 0#8) (hab : gfMul a b = 1#8) : b = gfInv a := by
  rw [← gfMul_gfInv_cancel h b, hab, gfMul_one_left]

theorem gfInv_ne_zero {a : Byte} (h : a ≠ 0#8) : gfInv a ≠ 0#8 := by
  intro h0
  have hmul := gfMul_gfInv h
  rw [h0, gfMul_zero_right] at hmul
  exact absurd hmul (by decide)

theorem gfInv_gfInv {a : Byte} (h : a ≠ 0#8) : gfInv (gfInv a) = a :=
  (eq_gfInv_of_gfMul_eq_one (gfInv_ne_zero h) (by rw [gfMul_comm, gfMul_gfInv h])).symm

theorem eq_zero_or_eq_zero_of_gfMul_eq_zero {a b : Byte} (hab : gfMul a b = 0#8) : a = 0#8 ∨ b = 0#8 := by
  refine or_iff_not_imp_left.mpr fun ha => ?_
  rw [← gfMul_gfInv_cancel ha b, hab, gfMul_zero_left]

end Sys2Proof.Machine
end

section
/-! PROOFS. The statements about field arithmetic (40_gf_arith.md): the field itself, and GFADD, GFMUL, GFINV and GFPOW through `exec`. -/

namespace Sys2Proof.Machine

/-! ## The field -/

/-- Settles O37: the loop of `gf_mul` multiplies residues modulo `POLY`, and a byte's polynomial is its own remainder. -/
theorem gfMulIsThePolynomialProductModuloPoly : Obligations.GfMulIsThePolynomialProductModuloPoly := bytePoly_gfMul

/-- Settles O38: the laws of addition are those of exclusive or, the laws of the product are carried over from residues. -/
theorem fieldLawsHold : Obligations.FieldLawsHold := fun a b c =>
  ⟨BitVec.xor_comm a b, BitVec.xor_assoc a b c, gfMul_comm a b, gfMul_assoc a b c, gfMul_xor_right a b c, BitVec.xor_zero,
    gfMul_one_right a, eq_zero_or_eq_zero_of_gfMul_eq_zero⟩

/-- Settles O39: the power 254 is the inverse, so that another inverse cancels to it. -/
theorem inverseIsUniqueAndThePower254 : Obligations.InverseIsUniqueAndThePower254 :=
  ⟨fun a h => ⟨gfMul_gfInv h, fun _ => eq_gfInv_of_gfMul_eq_one h, gfInv_eq_gfPow a, gfPow_255 h⟩, gfPow_add,
    fun _ => gfPow_zero_left⟩

/-! ## The instructions -/

/-- All that GFADD does (40_gf_arith.md R126). -/
theorem exec_gfadd_spec (s : State) (rd ra rb : RegNum) :
    ∃ t, exec (.gfadd rd ra rb) s = .next t ∧ WritesReg s t rd (s.readReg ra ^^^ s.readReg rb) :=
  s.finishReg_spec rd (s.readReg ra ^^^ s.readReg rb)

/-- All that GFMUL does (40_gf_arith.md R127). -/
theorem exec_gfmul_spec (s : State) (rd ra rb : RegNum) :
    ∃ t, exec (.gfmul rd ra rb) s = .next t ∧ WritesReg s t rd (gfMul (s.readReg ra) (s.readReg rb)) :=
  s.finishReg_spec rd (gfMul (s.readReg ra) (s.readReg rb))

/-- All that GFINV does on `0x00` (40_gf_arith.md R128). -/
theorem exec_gfinv_zero_spec (s : State) (rd : RegNum) {ra : RegNum} (h : s.readReg ra = 0) :
    ∃ t, exec (.gfinv rd ra) s = .next t ∧ Faults s t 6 0 := by
  have hexec : exec (.gfinv rd ra) s = s.fail .inverseOfZero 0 := if_pos h
  rw [hexec]
  exact s.fail_spec .inverseOfZero 0

/-- All that GFINV does on a nonzero byte (40_gf_arith.md R128). -/
theorem exec_gfinv_spec (s : State) (rd : RegNum) {ra : RegNum} (h : s.readReg ra ≠ 0) :
    ∃ t, exec (.gfinv rd ra) s = .next t ∧ WritesReg s t rd (gfInv (s.readReg ra)) := by
  have hexec : exec (.gfinv rd ra) s = s.finishReg rd (gfInv (s.readReg ra)) := if_neg h
  rw [hexec]
  exact s.finishReg_spec rd (gfInv (s.readReg ra))

/-- All that GFPOW does (40_gf_arith.md R129). -/
theorem exec_gfpow_spec (s : State) (rd ra rb : RegNum) :
    ∃ t, exec (.gfpow rd ra rb) s = .next t ∧ WritesReg s t rd (gfPow (s.readReg ra) (s.readReg rb).toNat) :=
  s.finishReg_spec rd (gfPow (s.readReg ra) (s.readReg rb).toNat)

/-- The register written holds the value written. -/
theorem WritesReg.readReg_self {s t : State} {rd : RegNum} {v : Byte} (h : WritesReg s t rd v) : t.readReg rd = v := h.1

/-- Settles O35: the byte written is `gf_inv` of the source, the one inverse; it is nonzero, so the second GFINV completes too. -/
theorem gfinvIsTheInverseOrFaults : Obligations.GfinvIsTheInverseOrFaults := by
  refine fun rd ra => ⟨decode_encode (i := .gfinv rd ra) rfl, fun s => ⟨exec_gfinv_zero_spec s rd, fun ha => ?_⟩⟩
  obtain ⟨t, ht, hwrites⟩ := exec_gfinv_spec s rd ha
  refine ⟨t, gfInv (s.readReg ra), ht, hwrites, gfMul_gfInv ha, fun _ => eq_gfInv_of_gfMul_eq_one ha, fun h1 => ?_, fun h53 => ?_, ?_⟩
  · rw [h1]
    decide
  · rw [h53]
    decide
  · have hrd : t.readReg rd ≠ 0 := by
      rw [hwrites.readReg_self]
      exact gfInv_ne_zero ha
    obtain ⟨u, hu, hwrites'⟩ := exec_gfinv_spec t rd hrd
    exact ⟨u, hu, by rw [hwrites'.readReg_self, hwrites.readReg_self, gfInv_gfInv ha]⟩

/-- Settles O36: each corner case is a law of powers at the exponent it names. -/
theorem gfpowIsThePower : Obligations.GfpowIsThePower := by
  refine fun rd ra rb => ⟨decode_encode (i := .gfpow rd ra rb) rfl, fun s => ?_⟩
  obtain ⟨t, ht, hwrites⟩ := exec_gfpow_spec s rd ra rb
  refine ⟨t, ht, hwrites, ?_⟩
  rw [hwrites.readReg_self]
  refine ⟨fun hb => ?_, fun ⟨ha, hb⟩ => ?_, fun ⟨ha, hb⟩ => ?_, fun ⟨ha, hb⟩ => ?_, fun ⟨ha, hb⟩ => ?_⟩
  · rw [hb]
    rfl
  · rw [ha]
    exact gfPow_zero_left fun h => hb (BitVec.eq_of_toNat_eq h)
  · rw [hb]
    change gfMul (s.readReg ra) (gfPow (s.readReg ra) 254) = 1#8
    rw [← gfInv_eq_gfPow, gfMul_gfInv ha]
  · rw [hb]
    exact gfPow_255 ha
  · rw [ha, hb]
    decide

/-- Settles O33: a byte is its own negative. -/
theorem gfaddIsExclusiveOr : Obligations.GfaddIsExclusiveOr := by
  refine fun rd ra rb => ⟨decode_encode (i := .gfadd rd ra rb) rfl, fun s => ?_⟩
  obtain ⟨t, ht, hwrites⟩ := exec_gfadd_spec s rd ra rb
  refine ⟨t, ht, hwrites, ?_⟩
  rw [hwrites.readReg_self]
  refine ⟨fun hab => ?_, fun ⟨ha, hb⟩ => ?_⟩
  · rw [hab]
    exact BitVec.xor_self
  · rw [ha, hb]
    decide

/-- Settles O34: each corner case is a law of the product with 0 or 1. -/
theorem gfmulIsTheFieldProduct : Obligations.GfmulIsTheFieldProduct := by
  refine fun rd ra rb => ⟨decode_encode (i := .gfmul rd ra rb) rfl, fun s => ?_⟩
  obtain ⟨t, ht, hwrites⟩ := exec_gfmul_spec s rd ra rb
  refine ⟨t, ht, hwrites, ?_⟩
  rw [hwrites.readReg_self]
  refine ⟨fun h0 => ?_, fun ha => ?_, fun hb => ?_, fun ⟨ha, hb⟩ => ?_⟩
  · rcases h0 with ha | hb
    · rw [ha]
      exact gfMul_zero_left _
    · rw [hb]
      exact gfMul_zero_right _
  · rw [ha]
    exact gfMul_one_left _
  · rw [hb]
    exact gfMul_one_right _
  · rw [ha, hb]
    decide

end Sys2Proof.Machine
end

section
/-! PROOFS. The statements about polynomial evaluation (41_polynomial_eval.md): `poly_eval` as a sum of residues, and PEVAL through `exec`. -/

namespace Sys2Proof.Machine

/-! ## Horner's rule, one coefficient at a time (41_polynomial_eval.md R140) -/

@[simp] theorem polyEval_nil (v : Byte) : polyEval [] v = 0#8 := rfl

@[simp] theorem polyEval_cons (a : Byte) (c : List Byte) (v : Byte) : polyEval (a :: c) v = gfMul (polyEval c v) v ^^^ a := rfl

/-- The residue of `poly_eval` is the value of the polynomial whose coefficients are the residues. -/
theorem residue_polyEval (c : List Byte) (v : Byte) :
    residue (polyEval c v) = ∑ j ∈ Finset.range c.length, residue (c.getD j 0) * residue v ^ j := by
  induction c with
  | nil => simp
  | cons a c ih =>
    rw [polyEval_cons, residue_xor, residue_gfMul, ih, List.length_cons, Finset.sum_range_succ', Finset.sum_mul]
    simp [pow_succ, mul_assoc]

/-- The exclusive or of `n` bytes is the sum of their residues. -/
theorem residue_foldl_xor (f : Nat → Byte) (n : Nat) :
    residue ((List.range n).foldl (fun acc j => acc ^^^ f j) 0) = ∑ j ∈ Finset.range n, residue (f j) := by
  induction n with
  | zero => simp
  | succ n ih =>
    rw [List.range_succ, List.foldl_append, Finset.sum_range_succ, ← ih]
    exact residue_xor _ _

theorem polyEval_eq_foldl (c : List Byte) (v : Byte) :
    polyEval c v = (List.range c.length).foldl (fun acc j => acc ^^^ gfMul (c.getD j 0) (gfPow v j)) 0 := by
  apply residue_injective
  rw [residue_polyEval, residue_foldl_xor]
  simp only [residue_gfMul, residue_gfPow]

theorem polyEval_zero_right (c : List Byte) : polyEval c 0#8 = c.getD 0 0 := by
  cases c with
  | nil => rfl
  | cons a c => rw [polyEval_cons, gfMul_zero_right, BitVec.zero_xor, List.getD_cons_zero]

theorem polyEval_singleton (a v : Byte) : polyEval [a] v = a := by
  rw [polyEval_cons, polyEval_nil, gfMul_zero_left, BitVec.zero_xor]

/-- Settles O40: both sides have the same residue, the sum of the coefficients' residues times the powers of the point's. -/
theorem polyEvalIsTheValueOfThePolynomial : Obligations.PolyEvalIsTheValueOfThePolynomial := by
  refine fun c v => ⟨polyEval_eq_foldl c v, fun _ => polyEval_zero_right c, fun hlen => ?_⟩
  obtain ⟨a, rfl⟩ := List.length_eq_one_iff.mp hlen
  exact polyEval_singleton a v

/-! ## PEVAL -/

/-- All that PEVAL does without coefficients (41_polynomial_eval.md R141). -/
theorem exec_peval_empty_spec (s : State) (rd ra : RegNum) (h : s.ncoef = 0) :
    ∃ t, exec (.peval rd ra) s = .next t ∧ Faults s t 1 0x0002 := by
  have hexec : exec (.peval rd ra) s = s.fail .invalidParameters subNcoefZero := if_pos h
  rw [hexec]
  exact s.fail_spec .invalidParameters subNcoefZero

/-- All that PEVAL does with a coefficient vector (41_polynomial_eval.md R141). -/
theorem exec_peval_spec (s : State) (rd ra : RegNum) (h : s.ncoef ≠ 0) :
    ∃ t, exec (.peval rd ra) s = .next t ∧ WritesReg s t rd (polyEval s.coefficients (s.readReg ra)) := by
  have hexec : exec (.peval rd ra) s = s.finishReg rd (polyEval s.coefficients (s.readReg ra)) := if_neg h
  rw [hexec]
  exact s.finishReg_spec rd (polyEval s.coefficients (s.readReg ra))

/-- Settles O41: `NCOEF` decides between the two, and the coefficients are the bytes read at `CBASE` upward (20_memory.md R71). -/
theorem pevalEvaluatesTheCoefficientVector : Obligations.PevalEvaluatesTheCoefficientVector :=
  fun rd ra => ⟨decode_encode (i := .peval rd ra) rfl, fun s => ⟨exec_peval_empty_spec s rd ra, exec_peval_spec s rd ra⟩⟩

end Sys2Proof.Machine
end

section
/-! PROOFS. The residues modulo `POLY` make up a field, and every residue is that of a byte (40_gf_arith.md R121 to R125), so that facts about
polynomials over a field speak of bytes. -/

namespace Sys2Proof.Machine

open Polynomial

/-! ## Every residue is that of a byte -/

/-- A polynomial of degree below 8 is the polynomial of the byte that has its coefficients as bits. -/
theorem exists_bytePoly_eq {p : (ZMod 2)[X]} (hp : p.degree < 8) : ∃ a, bytePoly a = p := by
  refine ⟨BitVec.ofFnLE fun i : Fin 8 => decide (p.coeff i = 1), ext fun i => ?_⟩
  have hbit (x : ZMod 2) : (if decide (x = 1) = true then (1 : ZMod 2) else 0) = x := by
    revert x
    decide
  rw [bytePoly_coeff]
  by_cases hi : i < 8
  · rw [BitVec.getLsbD_ofFnLE, dif_pos hi]
    exact hbit (p.coeff i)
  · rw [BitVec.getLsbD_of_ge _ i (by omega), (degree_lt_iff_coeff_zero p 8).mp hp i (by omega)]
    rfl

theorem residue_surjective : Function.Surjective residue := by
  intro x
  obtain ⟨p, rfl⟩ := AdjoinRoot.mk_surjective x
  obtain ⟨a, ha⟩ := exists_bytePoly_eq ((degree_modByMonic_lt p fieldPoly_monic).trans_eq fieldPoly_degree)
  have hmod := AdjoinRoot.mk_leftInverse fieldPoly_monic (AdjoinRoot.mk fieldPoly p)
  rw [AdjoinRoot.modByMonicHom_mk] at hmod
  exact ⟨a, by rw [residue, ha, hmod]⟩

theorem residue_eq_zero {a : Byte} : residue a = 0 ↔ a = 0#8 := by
  rw [← residue_zero, residue_injective.eq_iff]

/-- Exclusive or is subtraction too, each byte being its own negative (40_gf_arith.md R120). -/
theorem residue_xor_eq_sub (a b : Byte) : residue (a ^^^ b) = residue a - residue b := by
  rw [eq_sub_iff_add_eq, ← residue_xor, BitVec.xor_assoc, BitVec.xor_self, BitVec.xor_zero]

/-! ## The field -/

/-- `POLY` is prime, since the product of nonzero bytes is nonzero (40_gf_arith.md R125). -/
theorem fieldPoly_prime : Prime fieldPoly := by
  refine ⟨fieldPoly_monic.ne_zero, not_isUnit_of_degree_pos _ (by rw [fieldPoly_degree]; decide), fun p q hpq => ?_⟩
  obtain ⟨a, ha⟩ := residue_surjective (AdjoinRoot.mk fieldPoly p)
  obtain ⟨b, hb⟩ := residue_surjective (AdjoinRoot.mk fieldPoly q)
  have hab : gfMul a b = 0#8 := by
    rw [← residue_eq_zero, residue_gfMul, ha, hb, ← map_mul, AdjoinRoot.mk_eq_zero]
    exact hpq
  rw [← AdjoinRoot.mk_eq_zero, ← AdjoinRoot.mk_eq_zero, ← ha, ← hb, residue_eq_zero, residue_eq_zero]
  exact eq_zero_or_eq_zero_of_gfMul_eq_zero hab

theorem fact_irreducible_fieldPoly : Fact (Irreducible fieldPoly) := ⟨fieldPoly_prime.irreducible⟩

section
variable [Fact (Irreducible fieldPoly)]

/-- `gf_inv` is the inverse of the field, at zero too, where Mathlib's is zero and the power 254 is. -/
theorem residue_gfInv (a : Byte) : residue (gfInv a) = (residue a)⁻¹ := by
  by_cases ha : a = 0#8
  · rw [ha, gfInv_eq_gfPow, gfPow_zero_left (by decide), residue_zero, inv_zero]
  · refine eq_inv_of_mul_eq_one_right ?_
    rw [← residue_gfMul, gfMul_gfInv ha, residue_one]

end

end Sys2Proof.Machine
end

section
/-! PROOFS. Lagrange interpolation on bytes (42_interpolate.md R150) is that of the field of residues. -/

namespace Sys2Proof.Machine

open Polynomial

/-! ## The polynomial of a coefficient list -/

/-- The polynomial over the residues that has the residues of `c` as coefficients, coefficient 0 first. -/
noncomputable def coefPoly (c : List Byte) : (AdjoinRoot fieldPoly)[X] :=
  ∑ j ∈ Finset.range c.length, C (residue (c.getD j 0)) * X ^ j

@[simp] theorem eval_coefPoly (c : List Byte) (v : Byte) : (coefPoly c).eval (residue v) = residue (polyEval c v) := by
  simp [coefPoly, eval_finsetSum, residue_polyEval]

@[simp] theorem coeff_coefPoly (c : List Byte) (j : Nat) : (coefPoly c).coeff j = residue (c.getD j 0) := by
  simp only [coefPoly, finsetSum_coeff, coeff_C_mul_X_pow, Finset.sum_ite_eq, Finset.mem_range]
  split_ifs with hj
  · rfl
  · rw [List.getD_eq_default _ _ (by omega)]
    exact residue_zero.symm

theorem degree_coefPoly_lt (c : List Byte) : (coefPoly c).degree < c.length :=
  (degree_lt_iff_coeff_zero _ _).mpr fun j hj => by
    rw [coeff_coefPoly, List.getD_eq_default _ _ hj]
    exact residue_zero

theorem eq_of_coefPoly_eq {c c' : List Byte} (hlen : c.length = c'.length) (h : coefPoly c = coefPoly c') : c = c' := by
  refine List.ext_getElem hlen fun j hj hj' => residue_injective ?_
  rw [← List.getD_eq_getElem c 0 hj, ← List.getD_eq_getElem c' 0 hj', ← coeff_coefPoly, ← coeff_coefPoly, h]

theorem exists_coefPoly_eq {n : Nat} {p : (AdjoinRoot fieldPoly)[X]} (hp : p.degree < n) :
    ∃ c : List Byte, c.length = n ∧ coefPoly c = p := by
  choose byte hbyte using residue_surjective
  refine ⟨(List.range n).map fun j => byte (p.coeff j), by simp, ext fun j => ?_⟩
  rw [coeff_coefPoly]
  by_cases hj : j < n
  · simp [hj, hbyte]
  · rw [List.getD_eq_default _ _ (by simpa using hj), (degree_lt_iff_coeff_zero p n).mp hp j (by omega)]
    exact residue_zero

/-! ## The products of `lagrange0` -/

theorem residue_foldl_gfMul (f : Byte → Byte) (xs : List Byte) (b : Byte) :
    residue (xs.foldl (fun acc x => gfMul acc (f x)) b) = residue b * (xs.map fun x => residue (f x)).prod := by
  induction xs generalizing b with
  | nil => simp
  | cons x xs ih => simp [ih, mul_assoc]

/-- The list without its position `i` holds the bytes of the other positions. -/
theorem eraseIdx_eq_map_erase (xs : List Byte) {i : Nat} (hi : i < xs.length) :
    xs.eraseIdx i = ((List.range xs.length).erase i).map (xs.getD · 0) := by
  have hxs : (List.range xs.length).map (xs.getD · 0) = xs :=
    List.ext_getElem (by simp) fun j hj hj' => by simp [hj']
  have herase := List.nodup_range.erase_getElem i (by simpa using hi)
  rw [List.getElem_range] at herase
  rw [herase, ← List.eraseIdx_map, hxs]

/-- A product over the positions other than `i`, the form of `num` and of `den`. -/
theorem residue_foldl_eraseIdx (f : Byte → Byte) (xs : List Byte) {i : Nat} (hi : i < xs.length) :
    residue ((xs.eraseIdx i).foldl (fun acc x => gfMul acc (f x)) 1#8) =
      ∏ j ∈ (Finset.range xs.length).erase i, residue (f (xs.getD j 0)) := by
  rw [residue_foldl_gfMul, residue_one, one_mul, eraseIdx_eq_map_erase xs hi, List.map_map]
  rfl

theorem residue_basisNum (xs : List Byte) {i : Nat} (hi : i < xs.length) :
    residue (basisNum xs i) = ∏ j ∈ (Finset.range xs.length).erase i, residue (xs.getD j 0) :=
  residue_foldl_eraseIdx id xs hi

theorem residue_basisDen (xs : List Byte) {i : Nat} (hi : i < xs.length) :
    residue (basisDen xs i) = ∏ j ∈ (Finset.range xs.length).erase i, (residue (xs.getD i 0) - residue (xs.getD j 0)) := by
  refine (residue_foldl_eraseIdx (gfAdd · (xs.getD i 0)) xs hi).trans (Finset.prod_congr rfl fun j _ => ?_)
  rw [gfAdd_eq, BitVec.xor_comm, residue_xor_eq_sub]

theorem residue_neg (a : Byte) : -residue a = residue a := by
  rw [← zero_sub, ← residue_zero, ← residue_xor_eq_sub, BitVec.zero_xor]

/-! ## The interpolation polynomial -/

/-- The points of a list of bytes without repetition are different in the field. -/
theorem injOn_residue_getD {xs : List Byte} (h : xs.Nodup) :
    Set.InjOn (fun i => residue (xs.getD i 0)) (Finset.range xs.length) := by
  intro i hi j hj hij
  simp only [Finset.coe_range, Set.mem_Iio] at hi hj
  have heq := residue_injective hij
  rw [List.getD_eq_getElem _ _ hi, List.getD_eq_getElem _ _ hj] at heq
  exact h.getElem_inj_iff.mp heq

section
variable [Fact (Irreducible fieldPoly)]

/-- The polynomial through the points `(xs[i], ys[i])` over the field of residues. -/
noncomputable def interpolant (xs ys : List Byte) : (AdjoinRoot fieldPoly)[X] :=
  Lagrange.interpolate (Finset.range xs.length) (fun i => residue (xs.getD i 0)) fun i => residue (ys.getD i 0)

theorem residue_basisAtZero (xs : List Byte) {i : Nat} (hi : i < xs.length) :
    residue (basisAtZero xs i) =
      (Lagrange.basis (Finset.range xs.length) (fun i => residue (xs.getD i 0)) i).eval 0 := by
  simp only [basisAtZero, residue_gfMul, residue_gfInv, residue_basisNum xs hi, residue_basisDen xs hi, Lagrange.basis,
    Lagrange.basisDivisor, eval_prod, eval_mul, eval_C, eval_sub, eval_X, zero_sub, residue_neg, Finset.prod_mul_distrib,
    Finset.prod_inv_distrib]
  exact mul_comm _ _

/-- What `lagrange0` computes is the value at zero of the polynomial through the points. -/
theorem residue_lagrange0 (xs ys : List Byte) : residue (lagrange0 xs ys) = (interpolant xs ys).eval 0 := by
  refine (residue_foldl_xor (fun i => gfMul (ys.getD i 0) (basisAtZero xs i)) xs.length).trans ?_
  rw [interpolant, Lagrange.interpolate_apply, eval_finsetSum]
  refine Finset.sum_congr rfl fun i hi => ?_
  rw [residue_gfMul, residue_basisAtZero xs (Finset.mem_range.mp hi), eval_mul, eval_C]

/-- A coefficient list of as many bytes as there are points passes through them exactly when its polynomial is the interpolant. -/
theorem coefPoly_eq_interpolant_iff {xs c : List Byte} (ys : List Byte) (hx : xs.Nodup) (hc : c.length = xs.length) :
    coefPoly c = interpolant xs ys ↔ ∀ i < xs.length, polyEval c (xs.getD i 0) = ys.getD i 0 := by
  have hdeg : (coefPoly c).degree < (Finset.range xs.length).card := by
    rw [Finset.card_range, ← hc]
    exact degree_coefPoly_lt c
  rw [interpolant, ← Lagrange.eq_interpolate_iff _ (injOn_residue_getD hx)]
  simp only [hdeg, true_and, Finset.mem_range, eval_coefPoly, residue_injective.eq_iff]

theorem exists_coefPoly_eq_interpolant {xs : List Byte} (ys : List Byte) (hx : xs.Nodup) :
    ∃ c : List Byte, c.length = xs.length ∧ coefPoly c = interpolant xs ys :=
  exists_coefPoly_eq <| (Lagrange.degree_interpolate_lt _ (injOn_residue_getD hx)).trans_eq (by rw [Finset.card_range])

end

/-! ## `lagrange0` on bytes (42_interpolate.md R150) -/

/-- The value at zero of any coefficient list that passes through as many points as it is long. -/
theorem lagrange0_eq_polyEval_zero {xs ys c : List Byte} (hx : xs.Nodup) (hc : c.length = xs.length)
    (hpass : ∀ i < xs.length, polyEval c (xs.getD i 0) = ys.getD i 0) : lagrange0 xs ys = polyEval c 0#8 := by
  have := fact_irreducible_fieldPoly
  apply residue_injective
  rw [residue_lagrange0, ← (coefPoly_eq_interpolant_iff ys hx hc).mpr hpass, ← eval_coefPoly, residue_zero]

/-- The points have a polynomial, and only one, of degree below their number. -/
theorem existsUnique_coefficients {xs : List Byte} (ys : List Byte) (hx : xs.Nodup) :
    ∃! c : List Byte, c.length = xs.length ∧ ∀ i < xs.length, polyEval c (xs.getD i 0) = ys.getD i 0 := by
  have := fact_irreducible_fieldPoly
  obtain ⟨c, hc, hpoly⟩ := exists_coefPoly_eq_interpolant ys hx
  refine ⟨c, ⟨hc, (coefPoly_eq_interpolant_iff ys hx hc).mp hpoly⟩, fun c' ⟨hc', hpass'⟩ => ?_⟩
  exact eq_of_coefPoly_eq (hc'.trans hc.symm) (((coefPoly_eq_interpolant_iff ys hx hc').mpr hpass').trans hpoly.symm)

/-- No divisor of `lagrange0` is zero, since no factor of it is. -/
theorem basisDen_ne_zero {xs : List Byte} (hx : xs.Nodup) {i : Nat} (hi : i < xs.length) : basisDen xs i ≠ 0#8 := by
  have := fact_irreducible_fieldPoly
  rw [Ne, ← residue_eq_zero, residue_basisDen xs hi, Finset.prod_eq_zero_iff]
  rintro ⟨j, hj, hij⟩
  obtain ⟨hne, hj⟩ := Finset.mem_erase.mp hj
  exact hne (injOn_residue_getD hx hj (Finset.mem_coe.mpr (Finset.mem_range.mpr hi)) (sub_eq_zero.mp hij).symm)

/-- One point gives its own value: its polynomial is a constant. -/
theorem lagrange0_of_length_eq_one {xs : List Byte} (ys : List Byte) (hlen : xs.length = 1) : lagrange0 xs ys = ys.getD 0 0 := by
  obtain ⟨x, rfl⟩ := List.length_eq_one_iff.mp hlen
  have hpass : ∀ i < [x].length, polyEval [ys.getD 0 0] ([x].getD i 0) = ys.getD i 0 := fun i hi => by
    obtain rfl := Nat.lt_one_iff.mp hi
    exact polyEval_singleton _ x
  rw [lagrange0_eq_polyEval_zero (c := [ys.getD 0 0]) (List.nodup_singleton x) rfl hpass, polyEval_singleton]

/-- Settles O42: the one polynomial is that of Lagrange over the field of residues, and `lagrange0` computes its value at zero. -/
theorem lagrangeIsTheValueAtZeroOfTheOnePolynomial : Obligations.LagrangeIsTheValueAtZeroOfTheOnePolynomial := by
  intro xs ys _ _ _ hx
  obtain ⟨c, ⟨hc, hpass⟩, hunique⟩ := existsUnique_coefficients ys hx
  exact ⟨⟨c, hc, hpass, lagrange0_eq_polyEval_zero hx hc hpass, fun c' hc' hpass' => hunique c' ⟨hc', hpass'⟩⟩,
    fun i => basisDen_ne_zero hx, lagrange0_of_length_eq_one ys⟩

end Sys2Proof.Machine
end

section
/-! PROOFS. LINTERP through `exec` (42_interpolate.md R152, R153): the faults in their order, and the byte it writes. -/

namespace Sys2Proof.Machine

/-! ## The counts and the position -/

theorem State.checkCounts_of_mlen_zero {s : State} (hm : s.mlen = 0) :
    s.checkCounts = some (.invalidParameters, subMlenZero) := if_pos hm

theorem State.checkCounts_of_nsh_zero {s : State} (hm : s.mlen ≠ 0) (hn : s.nsh = 0) :
    s.checkCounts = some (.invalidParameters, subNshZero) := (if_neg hm).trans (if_pos hn)

theorem State.checkCounts_of_ne_zero {s : State} (hm : s.mlen ≠ 0) (hn : s.nsh ≠ 0) : s.checkCounts = none :=
  (if_neg hm).trans (if_neg hn)

theorem State.linterpFault_of_checkCounts {s : State} {f : Cause × Half} (h : s.checkCounts = some f) (p : Nat) :
    s.linterpFault p = some f := by
  rw [State.linterpFault, h]

theorem State.linterpFault_of_mlen_le {s : State} {p : Nat} (h : s.checkCounts = none) (hp : s.mlen.toNat ≤ p) :
    s.linterpFault p = some (.invalidParameters, subPosition) := by
  simp only [State.linterpFault, h, if_pos hp]

theorem State.linterpFault_of_lt_mlen {s : State} {p : Nat} (h : s.checkCounts = none) (hp : p < s.mlen.toNat) :
    s.linterpFault p = checkIndices s.shareXs := by
  simp only [State.linterpFault, h, if_neg (Nat.not_le.mpr hp)]

/-! ## LINTERP -/

/-- All that LINTERP does when a check fails (42_interpolate.md R153). -/
theorem exec_linterp_fault_spec {s : State} (rd : RegNum) {ra : RegNum} {c : Cause} {info : Half}
    (h : s.linterpFault (s.readReg ra).toNat = some (c, info)) :
    ∃ t, exec (.linterp rd ra) s = .next t ∧ Faults s t c.code info := by
  have hexec : exec (.linterp rd ra) s = s.fail c info := by simp only [exec, execLinterp, h]
  rw [hexec]
  exact s.fail_spec c info

/-- All that LINTERP does when every check passes (42_interpolate.md R152). -/
theorem exec_linterp_spec {s : State} (rd : RegNum) {ra : RegNum} (h : s.linterpFault (s.readReg ra).toNat = none) :
    ∃ t, exec (.linterp rd ra) s = .next t ∧ WritesReg s t rd (lagrange0 s.shareXs (s.shareYs (s.readReg ra).toNat)) := by
  have hexec : exec (.linterp rd ra) s = s.finishReg rd (lagrange0 s.shareXs (s.shareYs (s.readReg ra).toNat)) := by
    simp only [exec, execLinterp, h]
  rw [hexec]
  exact s.finishReg_spec rd _

/-- Settles O43: each condition fixes what the checks before it and its own find, and the instruction ends accordingly. -/
theorem linterpFaultsInOrderElseInterpolates : Obligations.LinterpFaultsInOrderElseInterpolates := by
  refine fun rd ra => ⟨decode_encode (i := .linterp rd ra) rfl, fun s =>
    ⟨fun hm => ?_, fun hm hn => ?_, fun hm hn hp => ?_, fun hm hn hp => ?_⟩⟩
  · exact exec_linterp_fault_spec rd (State.linterpFault_of_checkCounts (State.checkCounts_of_mlen_zero hm) _)
  · exact exec_linterp_fault_spec rd (State.linterpFault_of_checkCounts (State.checkCounts_of_nsh_zero hm hn) _)
  · exact exec_linterp_fault_spec rd (State.linterpFault_of_mlen_le (State.checkCounts_of_ne_zero hm hn) hp)
  · have hchecks := State.linterpFault_of_lt_mlen (State.checkCounts_of_ne_zero hm hn) hp
    exact ⟨fun i hz => exec_linterp_fault_spec rd (hchecks.trans (s.checkIndices_of_firstZeroAt i hz)),
      fun i j hd => exec_linterp_fault_spec rd (hchecks.trans (s.checkIndices_of_firstDuplicateAt i j hd)),
      fun hgood => exec_linterp_spec rd (hchecks.trans (s.checkIndices_of_indicesGood hgood))⟩

end Sys2Proof.Machine
end

section
/-! PROOFS. COMBINE through `exec` (43_combine.md R165 to R169): the faults in their order, the bytes it writes, and the secret of a split. -/

namespace Sys2Proof.Machine

/-! ## The checks -/

theorem State.combineFault_of_checkCounts {s : State} {f : Cause × Half} (h : s.checkCounts = some f) : s.combineFault = some f := by
  rw [State.combineFault, h]

theorem State.combineFault_of_counts_ne_zero {s : State} (hm : s.mlen ≠ 0) (hn : s.nsh ≠ 0) :
    s.combineFault = checkIndices s.shareXs := by
  rw [State.combineFault, State.checkCounts_of_ne_zero hm hn]

/-! ## COMBINE -/

/-- All that COMBINE does when a check fails (43_combine.md R166, R167). -/
theorem exec_combine_fault_spec {s : State} {c : Cause} {info : Half} (h : s.combineFault = some (c, info)) :
    ∃ t, exec .combine s = .next t ∧ Faults s t c.code info := by
  have hexec : exec .combine s = s.fail c info := by simp only [exec, execCombine, h]
  rw [hexec]
  exact s.fail_spec c info

/-- All that COMBINE does when every check passes (43_combine.md R165). -/
theorem exec_combine_spec {s : State} (h : s.combineFault = none) :
    ∃ t, exec .combine s = .next t ∧ WritesBytes s t s.obase.toNat s.combineOut := by
  have hexec : exec .combine s = .next (s.memWriteBytes s.obase.toNat s.combineOut).nextPc := by
    simp only [exec, execCombine, h]
  have hlen : s.combineOut.length ≤ Config.dmemBytes := by
    rw [s.length_combineOut]
    exact s.mlen.isLt.le.trans (by decide)
  exact ⟨_, hexec, s.storeBytes_spec _ _ hlen⟩

/-- Settles O44: each condition fixes what the checks before it and its own find, and the instruction ends accordingly. -/
theorem combineWritesTheWholeSecretOrFaults : Obligations.CombineWritesTheWholeSecretOrFaults := by
  refine ⟨decode_encode (i := .combine) rfl, fun s => ⟨fun hm => ?_, fun hm hn => ?_, fun hm hn => ?_⟩⟩
  · exact exec_combine_fault_spec (State.combineFault_of_checkCounts (State.checkCounts_of_mlen_zero hm))
  · exact exec_combine_fault_spec (State.combineFault_of_checkCounts (State.checkCounts_of_nsh_zero hm hn))
  · have hchecks := State.combineFault_of_counts_ne_zero hm hn
    exact ⟨fun i hz => exec_combine_fault_spec (hchecks.trans (s.checkIndices_of_firstZeroAt i hz)),
      fun i j hd => exec_combine_fault_spec (hchecks.trans (s.checkIndices_of_firstDuplicateAt i j hd)),
      fun hgood => exec_combine_spec (hchecks.trans (s.checkIndices_of_indicesGood hgood))⟩

/-! ## The bytes COMBINE writes -/

theorem State.getD_combineOut {s : State} {p : Nat} (hp : p < s.mlen.toNat) :
    s.combineOut.getD p 0 = lagrange0 s.shareXs (s.shareYs p) := by
  simp [State.combineOut, hp]

/-- On a share array that passes the checks, COMBINE writes the interpolated byte of every position (43_combine.md R165). -/
theorem exec_combine_memRead {s : State} (hm : s.mlen ≠ 0) (hn : s.nsh ≠ 0) (hgood : IndicesGood s s.nsh.toNat) :
    ∃ t, exec .combine s = .next t ∧
      ∀ p < s.mlen.toNat, t.memRead (s.obase.toNat + p) = lagrange0 s.shareXs (s.shareYs p) := by
  have hchecks := (State.combineFault_of_counts_ne_zero hm hn).trans (s.checkIndices_of_indicesGood hgood)
  obtain ⟨t, ht, hbytes, -⟩ := exec_combine_spec hchecks
  exact ⟨t, ht, fun p hp => (hbytes p (by rwa [s.length_combineOut])).trans (State.getD_combineOut hp)⟩

/-- Settles O45: both instructions interpolate the same share bytes over the same indices. -/
theorem combineEqualsALoopOfLinterp : Obligations.CombineEqualsALoopOfLinterp := by
  intro s rd ra hm hn hgood hp
  obtain ⟨t, ht, hbytes⟩ := exec_combine_memRead hm hn hgood
  have hchecks := (State.linterpFault_of_lt_mlen (State.checkCounts_of_ne_zero hm hn) hp).trans (s.checkIndices_of_indicesGood hgood)
  obtain ⟨u, hu, hwrites⟩ := exec_linterp_spec rd hchecks
  exact ⟨t, u, ht, hu, (hbytes _ hp).trans hwrites.readReg_self.symm⟩

/-! ## The secret of a split (43_combine.md R169) -/

theorem State.getD_shareYs {s : State} (p : Nat) {i : Nat} (h : i < s.nsh.toNat) : (s.shareYs p).getD i 0 = s.shareY i p := by
  simp [State.shareYs, h]

theorem State.nodup_shareXs {s : State} (h : IndicesGood s s.nsh.toNat) : s.shareXs.Nodup :=
  ((checkIndices_none _).mp (s.checkIndices_of_indicesGood h)).2

/-- Zero coefficients after the last do not change the value. -/
theorem polyEval_append_replicate_zero (c : List Byte) (n : Nat) (v : Byte) : polyEval (c ++ List.replicate n 0#8) v = polyEval c v := by
  induction c with
  | nil =>
    rw [List.nil_append, polyEval_nil]
    induction n with
    | zero => rfl
    | succ n ih => rw [List.replicate_succ, polyEval_cons, ih, gfMul_zero_left, BitVec.xor_zero]
  | cons a c ih => rw [List.cons_append, polyEval_cons, ih, polyEval_cons]

/-- More points than coefficients do no harm: the list padded with zeros is as long as the points and has the same values. -/
theorem lagrange0_eq_polyEval_zero_of_length_le {xs ys c : List Byte} (hx : xs.Nodup) (hc : c.length ≤ xs.length)
    (hpass : ∀ i < xs.length, polyEval c (xs.getD i 0) = ys.getD i 0) : lagrange0 xs ys = polyEval c 0#8 := by
  have hpad := polyEval_append_replicate_zero c (xs.length - c.length)
  refine (lagrange0_eq_polyEval_zero hx ?_ fun i hi => ?_).trans (hpad 0#8)
  · rw [List.length_append, List.length_replicate, Nat.add_sub_cancel' hc]
  · rw [hpad, hpass i hi]

/-- A position whose share bytes are values of a polynomial of at most as many coefficients as shares interpolates to coefficient 0. -/
theorem State.lagrange0_shares {s : State} {p : Nat} {c : List Byte} (hgood : IndicesGood s s.nsh.toNat) (hc : c.length ≤ s.nsh.toNat)
    (hshares : ∀ i < s.nsh.toNat, s.shareY i p = polyEval c (s.shareX i)) : lagrange0 s.shareXs (s.shareYs p) = c.getD 0 0 := by
  have hpass : ∀ i < s.shareXs.length, polyEval c (s.shareXs.getD i 0) = (s.shareYs p).getD i 0 := fun i hi => by
    rw [s.length_shareXs] at hi
    rw [s.getD_shareXs i hi, State.getD_shareYs p hi, hshares i hi]
  rw [lagrange0_eq_polyEval_zero_of_length_le (State.nodup_shareXs hgood) (by rwa [s.length_shareXs]) hpass, polyEval_zero_right]

/-- Settles O46: at least `k` shares fix a polynomial of `k` coefficients, and its value at zero is the secret byte. -/
theorem combineRecoversTheSecretOfASplit : Obligations.CombineRecoversTheSecretOfASplit := by
  intro s k coefs hm hk hkn hgood hlen hshares
  have hn : s.nsh ≠ 0 := by
    intro h0
    rw [h0] at hkn
    exact absurd (hk.trans hkn) (by decide)
  obtain ⟨t, ht, hbytes⟩ := exec_combine_memRead hm hn hgood
  refine ⟨t, ht, fun p hp => (hbytes p hp).trans (State.lagrange0_shares hgood ?_ (hshares p hp))⟩
  exact (hlen p hp).trans_le hkn

end Sys2Proof.Machine
end

section
/-! PROOFS. The comparators, the selector and the erase through `exec` (44_const_time.md R180 to R183). -/

namespace Sys2Proof.Machine

/-! ## Outcome bytes and conditions -/

theorem truthByte_beq_of_eq {a b : Byte} (h : a = b) : truthByte (a == b) = 0x01 := if_pos (beq_iff_eq.mpr h)

theorem truthByte_beq_of_ne {a b : Byte} (h : a ≠ b) : truthByte (a == b) = 0x00 := if_neg fun heq => h (beq_iff_eq.mp heq)

theorem isTrue_iff (v : Byte) : isTrue v = true ↔ v ≠ 0x00 := bne_iff_ne

/-! ## The difference of two sequences -/

/-- The byte accumulated over pairs is zero exactly when it starts at zero and no pair differs: OR never clears a bit. -/
theorem foldl_or_xor_eq_zero_iff (pairs : List (Byte × Byte)) (d : Byte) :
    pairs.foldl (fun d ab => d ||| (ab.1 ^^^ ab.2)) d = 0#8 ↔ d = 0#8 ∧ ∀ ab ∈ pairs, ab.1 = ab.2 := by
  induction pairs generalizing d with
  | nil => simp
  | cons ab pairs ih => rw [List.foldl_cons, ih, BitVec.or_eq_zero_iff, BitVec.xor_eq_zero_iff, List.forall_mem_cons, and_assoc]

theorem difference_eq_zero_iff (as bs : List Byte) : difference as bs = 0 ↔ ∀ ab ∈ as.zip bs, ab.1 = ab.2 :=
  (foldl_or_xor_eq_zero_iff (as.zip bs) 0#8).trans (and_iff_right rfl)

/-- The sequences at `ABASE` and `BBASE` have no difference exactly when they agree byte by byte. -/
theorem State.difference_sequences_eq_zero_iff (s : State) (len : Nat) :
    difference (s.sequenceA len) (s.sequenceB len) = 0 ↔
      ∀ j < len, s.memRead (s.abase.toNat + j) = s.memRead (s.bbase.toNat + j) := by
  rw [difference_eq_zero_iff, State.sequenceA, State.sequenceB, State.memReadBytes, State.memReadBytes, List.zip_map',
    List.forall_mem_map]
  simp only [List.mem_range]

/-! ## What each instruction does -/

/-- All that CEQ does (R180). -/
theorem exec_ceq_spec (s : State) (rd ra rb : RegNum) :
    ∃ t, exec (.ceq rd ra rb) s = .next t ∧ WritesReg s t rd (truthByte (s.readReg ra == s.readReg rb)) :=
  s.finishReg_spec rd _

/-- All that CSEL does (R181). -/
theorem exec_csel_spec (s : State) (rd ra rb rc : RegNum) :
    ∃ t, exec (.csel rd ra rb rc) s = .next t ∧ WritesReg s t rd (if isTrue (s.readReg rc) then s.readReg ra else s.readReg rb) :=
  s.finishReg_spec rd _

/-- All that MEQ does (R182). -/
theorem exec_meq_spec (s : State) (rd ra : RegNum) :
    ∃ t, exec (.meq rd ra) s = .next t ∧
      WritesReg s t rd (truthByte (difference (s.sequenceA (s.readReg ra).toNat) (s.sequenceB (s.readReg ra).toNat) == 0)) :=
  s.finishReg_spec rd _

/-- All that MZERO does (R183); the length is a byte, so the sequence does not wrap onto itself (20_memory.md R63). -/
theorem exec_mzero_spec (s : State) (ra : RegNum) :
    ∃ t, exec (.mzero ra) s = .next t ∧ WritesBytes s t s.abase.toNat (List.replicate (s.readReg ra).toNat 0) := by
  refine ⟨_, rfl, s.storeBytes_spec _ _ ?_⟩
  rw [List.length_replicate]
  exact (s.readReg ra).isLt.le.trans (by decide)

/-! ## The statements -/

/-- Settles O49: the accumulated difference is zero exactly when every pair is equal. -/
theorem meqComparesTheWholeSequences : Obligations.MeqComparesTheWholeSequences := by
  refine fun rd ra => ⟨decode_encode (i := .meq rd ra) rfl, fun s => ?_⟩
  obtain ⟨t, ht, hwrites⟩ := exec_meq_spec s rd ra
  have hzero := s.difference_sequences_eq_zero_iff (s.readReg ra).toNat
  refine ⟨fun hequal => ⟨t, ht, ?_⟩, fun ⟨j, hj, hne⟩ => ⟨t, ht, ?_⟩, fun hsame => ⟨t, ht, ?_⟩⟩
  · rwa [truthByte_beq_of_eq (hzero.mpr hequal)] at hwrites
  · rwa [truthByte_beq_of_ne fun h0 => hne (hzero.mp h0 j hj)] at hwrites
  · rw [hwrites.readReg_self]
    refine truthByte_beq_of_eq (hzero.mpr fun j hj => ?_)
    rcases hsame with hlen | hbase
    · exact absurd hj (by simp [hlen])
    · rw [hbase]

/-- Settles O50: the bytes written are as many zeros as the length register says. -/
theorem mzeroClearsTheSequence : Obligations.MzeroClearsTheSequence := by
  refine fun ra => ⟨decode_encode (i := .mzero ra) rfl, fun s => ?_⟩
  obtain ⟨t, ht, hbytes, hpc, hframe, hregs, hcsrs, himem⟩ := exec_mzero_spec s ra
  rw [List.length_replicate] at hbytes hframe
  refine ⟨t, ht, hpc, fun j hj => ?_, hframe, hregs, hcsrs, himem, fun hlen a => hframe a fun j hj => ?_⟩
  · exact (hbytes j hj).trans (List.getD_replicate _ hj)
  · exact absurd hj (by simp [hlen])

/-- Settles O47: the outcome byte follows from whether the source bytes are equal. -/
theorem ceqWritesTheOutcome : Obligations.CeqWritesTheOutcome := by
  refine fun rd ra rb => ⟨decode_encode (i := .ceq rd ra rb) rfl, fun s => ?_⟩
  obtain ⟨t, ht, hwrites⟩ := exec_ceq_spec s rd ra rb
  refine ⟨fun heq => ⟨t, ht, ?_⟩, fun hne => ⟨t, ht, ?_⟩, fun hreg => ⟨t, ht, ?_⟩⟩
  · rwa [truthByte_beq_of_eq heq] at hwrites
  · rwa [truthByte_beq_of_ne hne] at hwrites
  · rw [hwrites.readReg_self, truthByte_beq_of_eq (congrArg s.readReg hreg)]

/-- Settles O48: the condition byte decides which source is written. -/
theorem cselTakesTheSelectedValue : Obligations.CselTakesTheSelectedValue := by
  refine ⟨fun rd ra rb rc => ⟨decode_encode (i := .csel rd ra rb rc) rfl, fun s => ?_⟩, decode_encode (i := .csel 5 1 2 3) rfl⟩
  obtain ⟨t, ht, hwrites⟩ := exec_csel_spec s rd ra rb rc
  refine ⟨fun htrue => ⟨t, ht, ?_⟩, fun hfalse => ⟨t, ht, ?_⟩, fun hreg => ⟨t, ht, ?_⟩⟩
  · rwa [if_pos ((isTrue_iff _).mpr htrue)] at hwrites
  · rwa [if_neg fun h => (isTrue_iff _).mp h hfalse] at hwrites
  · rw [hwrites.readReg_self, ← hreg, ite_self]

end Sys2Proof.Machine
end

section
/-! PROOFS. Data movement and index arithmetic through `exec` (45_data_movement.md R200 to R208), LDB and STB being above with read after write. -/

namespace Sys2Proof.Machine

/-! ## Words of LDI with a must-be-zero bit set -/

/-- An immediate of two bytes is one byte's only when its high byte is zero (30_encoding.md R95). -/
theorem eq_zero_of_append_eq_byteImm {hi lo b : Byte} (h : hi ++ lo = byteImm b) : hi = 0 := by
  have hbytes := congrArg (BitVec.extractLsb' 8 8) h
  rwa [byteImm, BitVec.extractLsb'_append_eq_left, BitVec.extractLsb'_append_eq_left] at hbytes

/-- The mask of LDI leaves only `rd` and the low byte free, so a word that passes it has `ra` and `imm16[15:8]` zero. -/
theorem decode_ldiWord_error {rd ra : RegNum} {hi lo : Byte} (h : ra ≠ 0 ∨ hi ≠ 0) :
    decode (formatI 0x40#8 rd ra (hi ++ lo)) = .error .mustBeZero := by
  simp only [decode, fieldOp_formatI]
  refine if_neg fun hmask => ?_
  have hword := formatI_of_mask_rd_imm8 0x40#8 _ hmask
  have hra := congrArg fieldRa hword
  have himm := congrArg fieldImm16 hword
  rw [fieldRa_formatI, fieldRa_formatI] at hra
  rw [fieldImm16_formatI, fieldImm16_formatI] at himm
  exact h.elim (fun hne => hne hra.symm) fun hne => hne (eq_zero_of_append_eq_byteImm himm.symm)

/-! ## Byte sums and indexed addresses -/

/-- Byte addition drops the carry out of bit 7 (R207). -/
theorem byte_add_eq (a b : Byte) : a + b = BitVec.ofNat 8 ((a.toNat + b.toNat) % 256) :=
  BitVec.eq_of_toNat_eq (by simp)

theorem State.indexedAddr_eq (s : State) (imm16 : Half) (ra : RegNum) :
    s.indexedAddr imm16 ra = (imm16.toNat + (s.readReg ra).toNat) % 65536 := rfl

/-! ## What each instruction does -/

/-- A register written with its own value is kept. -/
theorem WritesReg.sameRegs {s t : State} {rd : RegNum} (h : WritesReg s t rd (s.readReg rd)) : SameRegs s t := by
  obtain ⟨hrd, -, hothers, -⟩ := h
  intro r
  by_cases hr : r = rd
  · rw [hr, hrd]
  · exact hothers r hr

/-- All that LDI does (R200). -/
theorem exec_ldi_spec (s : State) (rd : RegNum) (imm8 : Byte) : ∃ t, exec (.ldi rd imm8) s = .next t ∧ WritesReg s t rd imm8 :=
  s.finishReg_spec rd imm8

/-- All that MOV does (R201). -/
theorem exec_mov_spec (s : State) (rd ra : RegNum) : ∃ t, exec (.mov rd ra) s = .next t ∧ WritesReg s t rd (s.readReg ra) :=
  s.finishReg_spec rd (s.readReg ra)

/-- All that LDBX does (R203). -/
theorem exec_ldbx_spec (s : State) (rd ra : RegNum) (imm16 : Half) :
    ∃ t, exec (.ldbx rd ra imm16) s = .next t ∧ WritesReg s t rd (s.memRead (s.indexedAddr imm16 ra)) :=
  s.finishReg_spec rd (s.memRead (s.indexedAddr imm16 ra))

/-- All that STBX does (R205). -/
theorem exec_stbx_spec (s : State) (rs ra : RegNum) (imm16 : Half) :
    ∃ t, exec (.stbx rs ra imm16) s = .next t ∧ WritesBytes s t (s.indexedAddr imm16 ra) [s.readReg rs] :=
  ⟨_, rfl, s.storeByte_spec (s.indexedAddr imm16 ra) (s.readReg rs)⟩

/-- All that IADD does (R207). -/
theorem exec_iadd_spec (s : State) (rd ra rb : RegNum) :
    ∃ t, exec (.iadd rd ra rb) s = .next t ∧ WritesReg s t rd (s.readReg ra + s.readReg rb) :=
  s.finishReg_spec rd (s.readReg ra + s.readReg rb)

/-- All that IADDI does (R208). -/
theorem exec_iaddi_spec (s : State) (rd ra : RegNum) (imm8 : Byte) :
    ∃ t, exec (.iaddi rd ra imm8) s = .next t ∧ WritesReg s t rd (s.readReg ra + imm8) :=
  s.finishReg_spec rd (s.readReg ra + imm8)

/-! ## The statements -/

/-- Settles O51: a word with a must-be-zero bit set fails the row's mask test. -/
theorem ldiLoadsTheConstant : Obligations.LdiLoadsTheConstant :=
  ⟨fun rd imm8 => ⟨decode_encode (i := .ldi rd imm8) rfl, fun s => exec_ldi_spec s rd imm8⟩,
    fun _ _ _ _ => decode_ldiWord_error, decode_encode (i := .ldi 1 0x2A) rfl⟩

/-- Settles O52: a register moved to itself is written with its own value. -/
theorem movCopiesTheRegister : Obligations.MovCopiesTheRegister := by
  refine ⟨fun rd ra => ⟨decode_encode (i := .mov rd ra) rfl, fun s => ?_⟩, decode_encode (i := .mov 7 2) rfl⟩
  obtain ⟨t, ht, hwrites⟩ := exec_mov_spec s rd ra
  refine ⟨t, ht, hwrites, fun hreg => ?_⟩
  subst hreg
  exact hwrites.sameRegs

/-- Settles O53: an absolute address is the immediate itself. -/
theorem ldbLoadsTheByte : Obligations.LdbLoadsTheByte :=
  ⟨fun rd imm16 => ⟨decode_encode (i := .ldb rd imm16) rfl, fun s => exec_ldb_spec s rd imm16⟩,
    decode_encode (i := .ldb 1 0x0100) rfl⟩

/-- Settles O54: the address is that of the index before the load, and at the top of memory it wraps. -/
theorem ldbxLoadsTheIndexedByte : Obligations.LdbxLoadsTheIndexedByte := by
  refine ⟨fun rd ra imm16 => ⟨decode_encode (i := .ldbx rd ra imm16) rfl, fun s => ?_⟩, decode_encode (i := .ldbx 5 4 0x0200) rfl⟩
  obtain ⟨t, ht, hwrites⟩ := exec_ldbx_spec s rd ra imm16
  rw [State.indexedAddr_eq] at hwrites
  refine ⟨t, ht, hwrites, fun ⟨htop, hindex⟩ => ?_⟩
  rw [hwrites.readReg_self, htop, hindex]
  rfl

/-- Settles O55: an absolute address is the immediate itself. -/
theorem stbStoresTheByte : Obligations.StbStoresTheByte :=
  ⟨fun rs imm16 => ⟨decode_encode (i := .stb rs imm16) rfl, fun s => exec_stb_spec s rs imm16⟩,
    decode_encode (i := .stb 2 0x0301) rfl⟩

/-- Settles O56: the byte stored is read back at the indexed address. -/
theorem stbxStoresTheByteIndexed : Obligations.StbxStoresTheByteIndexed := by
  refine ⟨fun rs ra imm16 => ⟨decode_encode (i := .stbx rs ra imm16) rfl, fun s => ?_⟩, decode_encode (i := .stbx 2 4 0x0300) rfl⟩
  obtain ⟨t, ht, hwrites⟩ := exec_stbx_spec s rs ra imm16
  rw [State.indexedAddr_eq] at hwrites
  exact ⟨t, ht, hwrites, fun hreg => hwrites.memRead_self.trans (congrArg s.readReg hreg)⟩

/-- Settles O57: addition of bytes is addition modulo 256. -/
theorem iaddAddsModulo256 : Obligations.IaddAddsModulo256 := by
  refine ⟨fun rd ra rb => ⟨decode_encode (i := .iadd rd ra rb) rfl, fun s => ?_⟩, decode_encode (i := .iadd 4 1 1) rfl⟩
  obtain ⟨t, ht, hwrites⟩ := exec_iadd_spec s rd ra rb
  refine ⟨t, ht, byte_add_eq _ _ ▸ hwrites, fun ⟨ha, hb⟩ => ?_, fun ⟨ha, hb⟩ => ?_⟩
  all_goals
    rw [hwrites.readReg_self, ha, hb]
    decide

/-- Settles O58: `0xFF` is minus one modulo 256, and zero is neutral. -/
theorem iaddiAddsTheConstantModulo256 : Obligations.IaddiAddsTheConstantModulo256 := by
  refine ⟨fun rd ra imm8 => ⟨decode_encode (i := .iaddi rd ra imm8) rfl, fun s => ?_⟩, decode_encode (i := .iaddi 2 1 1) rfl⟩
  obtain ⟨t, ht, hwrites⟩ := exec_iaddi_spec s rd ra imm8
  refine ⟨t, ht, byte_add_eq _ _ ▸ hwrites, fun hones => ?_, fun hzero => ?_⟩
  · rw [hwrites.readReg_self, hones]
    exact (BitVec.sub_eq_add_neg (s.readReg ra) 1#8).symm
  · rw [hwrites.readReg_self, hzero]
    exact BitVec.add_zero _

end Sys2Proof.Machine
end

section
/-! PROOFS. JMP and LOOP through `exec` (46_control.md R215, R216), and the passes of a LOOP that starts with `LC` = c. -/

namespace Sys2Proof.Machine

/-! ## JMP -/

/-- All that JMP does (R215). -/
theorem exec_jmp_spec (target : Byte) (s : State) :
    ∃ t, exec (.jmp target) s = .next t ∧ t.pc = target ∧ SameRegs s t ∧ SameCsrs s t ∧ SameImem s t ∧ SameDmem s t :=
  ⟨_, rfl, rfl, s.readReg_jumpTo target, s.readCsr_jumpTo target, fun _ => rfl, fun _ => rfl⟩

theorem State.jumpTo_pc_self (s : State) : s.jumpTo s.pc = s := rfl

/-- A JMP to its own index leaves the whole state as it is. -/
theorem exec_jmp_self (s : State) : exec (.jmp s.pc) s = .next s := congrArg Host.Outcome.next s.jumpTo_pc_self

/-! ## LOOP -/

/-- What a taken LOOP leaves. -/
def State.takeLoop (target : Byte) (s : State) : State := (s.writeCsr .lc ((s.lc - 1).setWidth 16)).jumpTo target

theorem exec_loop_takeLoop (target : Byte) {s : State} (h : s.lc ≠ 0) : exec (.loop target) s = .next (s.takeLoop target) :=
  exec_loop_taken target s h

@[simp] theorem State.takeLoop_pc (target : Byte) (s : State) : (s.takeLoop target).pc = target := rfl

@[simp] theorem State.takeLoop_lc (target : Byte) (s : State) : (s.takeLoop target).lc = s.lc - 1 := by
  simp [State.takeLoop]

/-- Above zero, counting `LC` down as a byte is counting down the half-word it reads as: neither wraps. -/
theorem byte_setWidth_sub_one {b : Byte} (h : b ≠ 0) : (b - 1).setWidth 16 = b.setWidth 16 - 1 := by
  bv_omega

/-- All that a taken LOOP does (R216). -/
theorem exec_loop_taken_spec (target : Byte) {s : State} (h : s.lc ≠ 0) :
    ∃ t, exec (.loop target) s = .next t ∧ t.readCsr .lc = s.readCsr .lc - 1 ∧ t.pc = target ∧
      SameCsrsBut [.lc] s t ∧ SameRegs s t ∧ SameImem s t ∧ SameDmem s t := by
  refine ⟨_, exec_loop_takeLoop target h, ?_, rfl, fun c hc => ?_, fun r => ?_, fun _ => rfl, fun _ => rfl⟩
  · calc (s.takeLoop target).readCsr .lc = (s.takeLoop target).lc.setWidth 16 := rfl
      _ = (s.lc - 1).setWidth 16 := by rw [State.takeLoop_lc]
      _ = s.readCsr .lc - 1 := byte_setWidth_sub_one h
  · have hne : c ≠ .lc := fun he => hc (List.mem_singleton.mpr he)
    simp [State.takeLoop, State.readCsr_writeCsr, hne]
  · simp [State.takeLoop]

/-- All that a LOOP at `LC` = 0 does (R216). -/
theorem exec_loop_falls_spec (target : Byte) {s : State} (h : s.lc = 0) :
    ∃ t, exec (.loop target) s = .next t ∧ t.pc = s.pc + 1 ∧ SameCsrs s t ∧ SameRegs s t ∧ SameImem s t ∧ SameDmem s t :=
  ⟨_, exec_loop_falls target s h, rfl, s.readCsr_nextPc, s.readReg_nextPc, fun _ => rfl, fun _ => rfl⟩

/-! ## The passes of a LOOP -/

/-- The state before pass `n` of a LOOP first reached in `s`, if every pass before it was taken. -/
def State.loopPass (target : Byte) (s : State) (n : Nat) : State := (State.takeLoop target)^[n] s

theorem State.loopPass_succ (target : Byte) (s : State) (n : Nat) :
    s.loopPass target (n + 1) = (s.loopPass target n).takeLoop target :=
  Function.iterate_succ_apply' _ n s

/-- `LC` is c - n in pass `n`, as long as it has not passed zero. -/
theorem State.loopPass_lc_toNat (target : Byte) (s : State) {n : Nat} (h : n ≤ s.lc.toNat) :
    (s.loopPass target n).lc.toNat = s.lc.toNat - n := by
  induction n with
  | zero => rfl
  | succ n ih =>
    have hn := ih (by omega)
    rw [State.loopPass_succ, State.takeLoop_lc]
    bv_omega

theorem State.loopPass_lc_ne_zero (target : Byte) (s : State) {n : Nat} (h : n < s.lc.toNat) : (s.loopPass target n).lc ≠ 0 := by
  have hn := s.loopPass_lc_toNat target h.le
  bv_omega

theorem State.loopPass_lc_last (target : Byte) (s : State) : (s.loopPass target s.lc.toNat).lc = 0 :=
  BitVec.eq_of_toNat_eq ((s.loopPass_lc_toNat target le_rfl).trans (Nat.sub_self _))

/-- A pass before the last is taken. -/
theorem exec_loop_loopPass (target : Byte) (s : State) {n : Nat} (h : n < s.lc.toNat) :
    exec (.loop target) (s.loopPass target n) = .next (s.loopPass target (n + 1)) := by
  rw [State.loopPass_succ]
  exact exec_loop_takeLoop target (s.loopPass_lc_ne_zero target h)

/-! ## The statements -/

/-- Settles O59: a jump to `pc` itself leaves `pc`, and JMP writes nothing else. -/
theorem jmpGoesToTheTarget : Obligations.JmpGoesToTheTarget :=
  ⟨fun target => ⟨decode_encode (i := .jmp target) rfl, fun s =>
    ⟨exec_jmp_spec target s, fun hrun hself => (step_of_decode s (.jmp s.pc) hrun hself).trans (exec_jmp_self s)⟩⟩,
    decode_encode (i := .jmp 0x10) rfl⟩

/-- Settles O60: the passes are the iterates of a taken LOOP, and after c of them `LC` is 0. -/
theorem loopCountsDownAndBranches : Obligations.LoopCountsDownAndBranches := by
  refine ⟨fun target => ⟨decode_encode (i := .loop target) rfl,
    fun s => ⟨exec_loop_taken_spec target, exec_loop_falls_spec target⟩, fun s => ?_⟩, decode_encode (i := .loop 0x02) rfl⟩
  have hlast := s.loopPass_lc_last target
  refine ⟨s.loopPass target, rfl, fun n hn => ⟨exec_loop_loopPass target s hn, ?_⟩, fun n => s.loopPass_lc_toNat target,
    _, exec_loop_falls target _ hlast, rfl, hlast⟩
  rw [State.loopPass_succ, State.takeLoop_pc]

end Sys2Proof.Machine
end

section
/-! PROOFS. The system instructions through `exec` (47_system.md R225 to R229). -/

namespace Sys2Proof.Machine

/-! ## Values and numbers of control registers -/

/-- A byte zero-extended fits every control register (R228). -/
theorem csrFits_byte (c : Csr) (b : Byte) : csrFits c (b.setWidth 16) = true :=
  (csrFits_iff c _).mpr (.inr (by bv_omega))

/-- A value above 255 does not fit a control register of 8 bits (R227). -/
theorem not_csrFits_of_gt {c : Csr} {v : Half} (hc : csrWide c = false) (hv : 255 < v) : ¬ csrFits c v = true := by
  rw [csrFits_iff]
  rintro (hwide | hle)
  · simp [hc] at hwide
  · exact BitVec.not_le.mpr hv hle

/-- A value of at most 255 is its own low byte. -/
theorem setWidth_lowByte_of_lt {v : Half} (h : v < 256) : (v.extractLsb' 0 8).setWidth 16 = v := by
  rw [← BitVec.setWidth_eq_extractLsb' (by decide)]
  bv_omega

/-- The number test of a write refuses the read-only numbers 0 to 3 and the reserved ones (30_encoding.md R96). -/
theorem decodeCsrWrite_refused {n : BitVec 4} (h : n < 4#4 ∨ 13#4 < n) (k : Csr → Instr) :
    decodeCsrWrite n k = .error .csrNumber := by
  rcases h with hlow | hhigh
  · exact if_pos hlow
  · have hn : n = 14 ∨ n = 15 := by bv_omega
    obtain ⟨hreserved, -⟩ := csr_reserved hn
    exact decodeCsrWrite_reserved hreserved k

/-! ## What each instruction does -/

/-- All that NOP does (R225). -/
theorem exec_nop_spec (s : State) :
    ∃ t, exec .nop s = .next t ∧ t.pc = s.pc + 1 ∧ SameRegs s t ∧ SameCsrs s t ∧ SameImem s t ∧ SameDmem s t :=
  ⟨_, rfl, rfl, s.readReg_nextPc, s.readCsr_nextPc, fun _ => rfl, fun _ => rfl⟩

/-- HALT changes no control register but `STATUS` (R226). -/
theorem State.halt_sameCsrsBut (s : State) : SameCsrsBut [.status] s s.halt := fun c hc =>
  (s.readCsr_halt c).trans (if_neg fun he => hc (List.mem_singleton.mpr he))

/-- `t` is `s` after `csr[c] <- v` and `pc <- (pc + 1) mod 256`, and nothing else. -/
def WritesCsr (s t : State) (c : Csr) (v : Half) : Prop :=
  t.readCsr c = v ∧ t.pc = s.pc + 1 ∧ SameCsrsBut [c] s t ∧ SameRegs s t ∧ SameImem s t ∧ SameDmem s t

/-- All that writing a control register and going on does, when the value fits. -/
theorem State.writeCsr_nextPc_spec (s : State) {c : Csr} {v : Half} (hc : c.writable = true) (hv : csrFits c v = true) :
    WritesCsr s (s.writeCsr c v).nextPc c v := by
  refine ⟨?_, by simp, fun c' hc' => ?_, fun r => by simp, fun i => ?_, fun a => ?_⟩
  · rw [State.readCsr_nextPc, s.readCsr_writeCsr_self c v hc hv]
  · have hne : c' ≠ c := fun he => hc' (List.mem_singleton.mpr he)
    simp [State.readCsr_writeCsr, hne]
  · exact State.readImem_congr _ _ (by simp) i
  · exact State.memRead_of_dmem_eq _ _ (by simp) a

/-- All that CSRWI does when the constant fits (R227). -/
theorem exec_csrwi_spec (s : State) {c : Csr} {imm16 : Half} (hc : c.writable = true) (hv : csrFits c imm16 = true) :
    ∃ t, exec (.csrwi c imm16) s = .next t ∧ WritesCsr s t c imm16 :=
  ⟨_, (if_pos hc).trans (if_pos hv), s.writeCsr_nextPc_spec hc hv⟩

/-- All that CSRWI does when the constant does not fit (R227). -/
theorem exec_csrwi_fault_spec (s : State) {c : Csr} {imm16 : Half} (hc : c.writable = true) (hv : ¬ csrFits c imm16 = true) :
    ∃ t, exec (.csrwi c imm16) s = .next t ∧ Faults s t 1 subCsrValue := by
  have hexec : exec (.csrwi c imm16) s = s.fail .invalidParameters subCsrValue := (if_pos hc).trans (if_neg hv)
  rw [hexec]
  exact s.fail_spec .invalidParameters subCsrValue

/-- All that CSRW does (R228). -/
theorem exec_csrw_spec (s : State) {c : Csr} (ra : RegNum) (hc : c.writable = true) :
    ∃ t, exec (.csrw c ra) s = .next t ∧ WritesCsr s t c ((s.readReg ra).setWidth 16) :=
  ⟨_, if_pos hc, s.writeCsr_nextPc_spec hc (csrFits_byte c _)⟩

/-- All that CSRR does (R229). -/
theorem exec_csrr_spec (s : State) (rd : RegNum) (c : Csr) :
    ∃ t, exec (.csrr rd c) s = .next t ∧ WritesReg s t rd ((s.readCsr c).extractLsb' 0 8) := by
  rw [← BitVec.setWidth_eq_extractLsb' (by decide)]
  exact s.finishReg_spec rd _

/-- A control register that is zero reads as `0x00`. -/
theorem exec_csrr_of_zero (s : State) (rd : RegNum) {c : Csr} (h : s.readCsr c = 0) :
    ∃ t, exec (.csrr rd c) s = .next t ∧ t.readReg rd = 0 := by
  obtain ⟨t, ht, hwrites⟩ := exec_csrr_spec s rd c
  exact ⟨t, ht, by rw [hwrites.readReg_self, h]; decide⟩

/-! ## The statements -/

/-- Settles O30: CSRWI tests whether the constant fits the register; it always does when it has 16 bits or the constant is a byte. -/
theorem csrwiWritesTheConstantOrFaults : Obligations.CsrwiWritesTheConstantOrFaults := by
  refine ⟨fun n c wide reset imm16 hmem => ?_, fun n imm16 hn => (decode_csrwiWord n imm16).trans (decodeCsrWrite_refused hn _),
    decode_encode (i := .csrwi .nsh 3) rfl, decode_encode (i := .csrwi .sbase 0x0300) rfl,
    decode_encode (i := .csrwi .nsh 0x0100) rfl⟩
  obtain ⟨rfl, rfl, hwritable, -⟩ := csrTable_spec n c wide true reset hmem
  exact ⟨decode_encode (i := .csrwi c imm16) hwritable.symm, fun s =>
    ⟨fun hfits => exec_csrwi_spec s hwritable.symm ((csrFits_iff c imm16).mpr hfits),
      fun ⟨hnarrow, hlarge⟩ => exec_csrwi_fault_spec s hwritable.symm (not_csrFits_of_gt hnarrow hlarge)⟩⟩

/-- Settles O32: an 8-bit register reads below 256, so its low byte is all of it; in `RUN` the invariant makes `CAUSE` and `EPC` zero. -/
theorem csrrReadsTheLowByte : Obligations.CsrrReadsTheLowByte := by
  refine ⟨fun n c wide writable reset rd hmem => ?_, fun n rd hn => ?_, fun s rd ⟨_, hrecord⟩ hrun => ?_,
    decode_encode (i := .csrr 4 .lc) rfl⟩
  · obtain ⟨rfl, rfl, -, -⟩ := csrTable_spec n c wide writable reset hmem
    refine ⟨decode_encode (i := .csrr rd c) rfl, fun s => ?_⟩
    obtain ⟨t, ht, hwrites⟩ := exec_csrr_spec s rd c
    refine ⟨t, ht, hwrites, fun hnarrow => ?_⟩
    rw [hwrites.readReg_self]
    exact setWidth_lowByte_of_lt (s.readCsr_lt_of_narrow c hnarrow)
  · obtain ⟨hreserved, -⟩ := csr_reserved hn
    exact (decode_csrrWord rd n).trans (decodeCsrRead_reserved hreserved _)
  · obtain ⟨hcause, hepc, -⟩ := (s.faultRecord_of_ne_faulted (by simp [hrun])).mp hrecord
    exact ⟨exec_csrr_status s rd hrun, exec_csrr_of_zero s rd (congrArg (BitVec.setWidth 16) hcause),
      exec_csrr_of_zero s rd (congrArg (BitVec.setWidth 16) hepc)⟩

/-- Settles O28: opcode byte `0x00` is unassigned, so the all-zero word does not decode. -/
theorem nopOnlyAdvancesPc : Obligations.NopOnlyAdvancesPc :=
  ⟨decode_encode (i := .nop) rfl, (decode_error_iff 0x00000000).mp ⟨.unassignedOpcode, rfl⟩, exec_nop_spec⟩

/-- Settles O29: the engine idles outside `RUN`, and `HostStart` is accepted in `HALTED`. -/
theorem haltEndsTheRun : Obligations.HaltEndsTheRun :=
  ⟨decode_encode (i := .halt) rfl, fun s => ⟨s.halt, rfl, rfl, rfl, s.readReg_halt, s.halt_sameCsrsBut, fun _ => rfl, fun _ => rfl,
    step_of_ne_run s.halt nofun, s.halt.hostStart, s.halt.transact_start (.inr rfl), rfl, rfl⟩⟩

/-- Settles O31: a zero-extended byte fits every register, so that CSRW does not fault. -/
theorem csrwWritesTheByte : Obligations.CsrwWritesTheByte := by
  refine ⟨fun n c wide reset ra hmem => ?_, fun n ra hn => (decode_csrwWord n ra).trans (decodeCsrWrite_refused hn _),
    decode_encode (i := .csrw .lc 3) rfl⟩
  obtain ⟨rfl, -, hwritable, -⟩ := csrTable_spec n c wide true reset hmem
  exact ⟨decode_encode (i := .csrw c ra) hwritable.symm, fun s => exec_csrw_spec s ra hwritable.symm⟩

end Sys2Proof.Machine
end

section
/-! PROOFS. Faults at execution (60_exceptions.md R244, R246) and the host's transactions (R261 to R270): who may do what in which run state. -/

namespace Sys2Proof.Machine

/-! ## Faults -/

/-- An instruction executed in `RUN` that ends in `FAULTED` raised a cause, one of its own if a word stands for it, and did nothing else. -/
theorem EndsIn.raises_of_faulted {i : Instr} {s t : State} (h : EndsIn i s t) (hr : s.runState = .run) (hf : t.runState = .faulted) :
    ∃ c info, (i.wellFormed = true → c.code ∈ raisable i) ∧ t = s.raise c info := by
  cases h
  case faults c info hl hraise ht => exact ⟨c, info, hraise, ht⟩
  all_goals
    rename_i ht
    simp [ht, hr] at hf

/-- A step from `RUN` into `FAULTED` is the taking of a fault (60_exceptions.md R246). -/
theorem step_raises_of_faulted {s t : State} (hr : s.runState = .run) (h : step s = .next t) (hf : t.runState = .faulted) :
    ∃ c info, t = s.raise c info := by
  rcases step_cases s t h with ⟨hne, -⟩ | ⟨-, i, -, hx⟩ | ⟨-, -, rfl⟩
  · exact absurd hr hne
  · obtain ⟨c, info, -, rfl⟩ := (exec_cases i s t hx).raises_of_faulted hr hf
    exact ⟨c, info, rfl⟩
  · exact ⟨_, _, rfl⟩

/-! ## The invariant under what the host does -/

@[simp] theorem State.faultRecord_writeImem (s : State) (i : BitVec 8) (w : Word) : (s.writeImem i w).faultRecord = s.faultRecord := rfl
@[simp] theorem State.faultRecord_memWrite (s : State) (a : Nat) (v : Byte) : (s.memWrite a v).faultRecord = s.faultRecord := rfl
@[simp] theorem State.faultRecord_writeReg (s : State) (r : RegNum) (v : Byte) : (s.writeReg r v).faultRecord = s.faultRecord := rfl
@[simp] theorem State.faultRecord_writeCsr (s : State) (c : Csr) (v : Half) : (s.writeCsr c v).faultRecord = s.faultRecord := by
  cases c <;> rfl

/-- No fault is on record where the host may start a run, and starting it records none. -/
theorem State.faultRecord_hostStart {s : State} (hs : s.runState = .idle ∨ s.runState = .halted) (hf : s.faultRecord = true) :
    s.hostStart.faultRecord = true :=
  (s.hostStart.faultRecord_of_ne_faulted nofun).mpr
    ((s.faultRecord_of_ne_faulted (by rcases hs with hs | hs <;> simp [hs])).mp hf)

theorem State.inv_hostReset (s : State) : s.hostReset.Inv := ⟨State.reset_dmem_wf, by simp [State.faultRecord, State.reset]⟩

theorem HostEffect.inv {tr : Transaction} {s t : State} (h : HostEffect tr s t) (hi : s.Inv) : t.Inv := by
  obtain ⟨hm, hf⟩ := hi
  cases h
  case resets _ ht =>
    rw [ht]
    exact s.inv_hostReset
  case starts _ hs ht =>
    rw [ht]
    exact ⟨hm, State.faultRecord_hostStart hs hf⟩
  case writesDmem a v ht =>
    rw [ht]
    exact ⟨s.memWrite_wf a v hm, by simpa using hf⟩
  all_goals
    rename_i ht
    simp [State.Inv, ht, hm, hf]

/-! ## What no transaction but reset does -/

/-- A recorded fault is erased by reset alone (60_exceptions.md R249, R269). -/
theorem State.transact_fault_registers (s : State) {tr : Transaction} (hr : tr ≠ .reset) :
    (s.transact tr).1.cause = s.cause ∧ (s.transact tr).1.epc = s.epc ∧ (s.transact tr).1.finfo = s.finfo := by
  cases s.transact_effect tr
  case resets htr ht => exact absurd htr hr
  all_goals
    rename_i ht
    simp [ht]

/-- Apart from reset, the run state changes by a start from `IDLE` or `HALTED` alone (10_state.md R30). -/
theorem State.transact_runState (s : State) {tr : Transaction} (hr : tr ≠ .reset)
    (hs : tr = .start → s.runState ≠ .idle ∧ s.runState ≠ .halted) : (s.transact tr).1.runState = s.runState := by
  by_contra hne
  rcases s.transact_runState_change tr hne with ⟨htr, -⟩ | ⟨htr, hidle | hhalted, -⟩
  · exact hr htr
  · exact (hs htr).1 hidle
  · exact (hs htr).2 hhalted

/-! ## Refusals (60_exceptions.md R261, R263) -/

theorem State.transact_refused_of_run {s : State} (h : s.runState = .run) {tr : Transaction} (hr : tr ≠ .reset) (hc : tr ≠ .readCsr 0) :
    s.transact tr = (s, .refused) := by
  rw [s.transact_of_run h]
  cases tr with
  | reset => exact absurd rfl hr
  | readCsr c =>
    cases c with
    | zero => exact absurd rfl hc
    | succ c => rfl
  | _ => rfl

theorem State.transact_readCsr_status (s : State) : s.transact (.readCsr 0) = (s, .half (s.readCsr .status)) := by
  by_cases h : s.runState = .run
  · rw [s.transact_of_run h]
    rfl
  · exact s.transact_readCsr h rfl

theorem State.transact_start_refused {s : State} (h : s.runState = .run ∨ s.runState = .faulted) : s.transact .start = (s, .refused) := by
  rcases h with h | h
  · exact State.transact_refused_of_run h nofun nofun
  · simp [s.transact_of_ne_run, State.transactStopped, State.refuse, h]

/-! ## The host's accesses when the engine is stopped (60_exceptions.md R264, R265, R267, R268) -/

section
variable {s : State} (h : s.runState ≠ .run)
include h

theorem State.transact_readImem (i : BitVec 8) : s.transact (.readImem i.toNat) = (s, .word (s.readImem i)) := by
  simp [s.transact_of_ne_run h, State.transactStopped, i.isLt]

theorem State.transact_writeImem (i : BitVec 8) (w : Word) : s.transact (.writeImem i.toNat w) = (s.writeImem i w, .done) := by
  simp [s.transact_of_ne_run h, State.transactStopped, i.isLt]

theorem State.transact_readDmem {a : Nat} (ha : a < 65536) : s.transact (.readDmem a) = (s, .byte (s.memRead a)) :=
  (s.transact_of_ne_run h _).trans (if_pos ha)

theorem State.transact_writeDmem {a : Nat} (ha : a < 65536) (v : Byte) : s.transact (.writeDmem a v) = (s.memWrite a v, .done) :=
  (s.transact_of_ne_run h _).trans (if_pos ha)

theorem State.transact_readReg (r : RegNum) : s.transact (.readReg r.toNat) = (s, .byte (s.readReg r)) := by
  simp [s.transact_of_ne_run h, State.transactStopped, r.isLt]

theorem State.transact_writeReg (r : RegNum) (v : Byte) : s.transact (.writeReg r.toNat v) = (s.writeReg r v, .done) := by
  simp [s.transact_of_ne_run h, State.transactStopped, r.isLt]

/-- An index of instruction memory from 256 is refused (log entry 8). -/
theorem State.transact_imem_refused {i : Nat} (hi : 256 ≤ i) (w : Word) :
    s.transact (.writeImem i w) = (s, .refused) ∧ s.transact (.readImem i) = (s, .refused) := by
  simp [s.transact_of_ne_run h, State.transactStopped, State.refuse, Nat.not_lt.mpr hi]

/-- An address of data memory from 65536 is refused (log entry 8). -/
theorem State.transact_dmem_refused {a : Nat} (ha : 65536 ≤ a) (v : Byte) :
    s.transact (.writeDmem a v) = (s, .refused) ∧ s.transact (.readDmem a) = (s, .refused) := by
  simp [s.transact_of_ne_run h, State.transactStopped, State.refuse, Config.dmemBytes, Nat.not_lt.mpr ha]

/-- An index of a general register from 16 is refused (log entry 8). -/
theorem State.transact_reg_refused {i : Nat} (hi : 16 ≤ i) (v : Byte) :
    s.transact (.readReg i) = (s, .refused) ∧ s.transact (.writeReg i v) = (s, .refused) := by
  simp [s.transact_of_ne_run h, State.transactStopped, State.refuse, Nat.not_lt.mpr hi]

/-- A value with a bit the register lacks is refused (10_state.md R43). -/
theorem State.transact_writeCsr_too_large {n : Nat} {c : Csr} (hc : csrOfIndex n = some c) {v : Half} (hv : ¬ csrFits c v = true) :
    s.transact (.writeCsr n v) = (s, .refused) := by
  simp [s.transact_of_ne_run h, State.transactStopped, State.hostWriteCsr, State.refuse, hc, hv]

end

/-- No control register has a number from 14 (10_state.md R42; log entry 8). -/
theorem csrOfIndex_of_ge {n : Nat} (h : 14 ≤ n) : csrOfIndex n = none := by
  by_cases hn : n < 16
  · interval_cases n <;> rfl
  · exact if_neg hn

/-! ## What the host's effects keep -/

/-- `HostStart` changes no control register but `STATUS` (60_exceptions.md R270). -/
theorem State.hostStart_sameCsrsBut (s : State) : SameCsrsBut [.status] s s.hostStart := by
  intro c hc
  cases c
  case status => exact absurd (List.mem_singleton_self _) hc
  all_goals rfl

theorem State.writeCsr_sameCsrsBut (s : State) (c : Csr) (v : Half) : SameCsrsBut [c] s (s.writeCsr c v) := by
  intro c' hc'
  have hne : c' ≠ c := fun he => hc' (List.mem_singleton.mpr he)
  simp [State.readCsr_writeCsr, hne]

theorem State.writeReg_sameRegsBut (s : State) (r : RegNum) (v : Byte) : SameRegsBut r s (s.writeReg r v) := by
  intro r' hr'
  simp [State.readReg_writeReg, hr']

theorem State.readCsr_writeImem (s : State) (i : BitVec 8) (w : Word) (c : Csr) : (s.writeImem i w).readCsr c = s.readCsr c := by
  cases c <;> rfl

theorem State.memWrite_sameDmemOutside (s : State) (a : Nat) (v : Byte) : SameDmemOutside a 1 s (s.memWrite a v) := by
  intro b hb
  exact State.memRead_memWriteBytes_of_ne [v] s a b hb

/-- Reset gives every control register its power-on value (70_reset_and_hazards.md R291). -/
theorem State.readCsr_hostReset (s : State) (c : Csr) : s.hostReset.readCsr c = State.reset.readCsr c := by
  cases c <;> simp [State.readCsr]

end Sys2Proof.Machine
end

section
/-! PROOFS. The statements about faults, the host and reset (60_exceptions.md, 70_reset_and_hazards.md). -/

namespace Sys2Proof.Machine

/-- Settles O12: every effect of a transaction keeps data memory canonical, and keeps the fault record or makes it that of no fault. -/
theorem transactionsKeepTheInvariant : Obligations.TransactionsKeepTheInvariant :=
  fun s tr hi => (s.transact_effect tr).inv hi

/-- Settles O14: such a step is `State.raise`, which writes those four registers. -/
theorem faultsArePrecise : Obligations.FaultsArePrecise := by
  intro s t hr h hf
  obtain ⟨c, info, rfl⟩ := step_raises_of_faulted hr h hf
  exact ⟨rfl, rfl, rfl, rfl, rfl, fun c' hc' => s.readCsr_raise c info c' hc'⟩

/-- Settles O15: an execution that ends in `FAULTED` raised one of the instruction's own causes. -/
theorem instructionsRaiseOnlyTheirCauses : Obligations.InstructionsRaiseOnlyTheirCauses := by
  intro i s t hw hr h hf
  obtain ⟨c, info, hraise, rfl⟩ := (exec_cases i s t h).raises_of_faulted hr hf
  exact hraise hw

/-- Settles O22: outside `RUN` the engine idles and every read is answered; a start is refused in `FAULTED`, so that only reset leaves it. -/
theorem faultedIsLeftOnlyByReset : Obligations.FaultedIsLeftOnlyByReset := by
  intro s hf
  have hr : s.runState ≠ .run := by simp [hf]
  refine ⟨step_of_ne_run s hr, State.transact_start_refused (.inr hf), fun tr htr => ⟨?_, s.transact_fault_registers htr⟩,
    ⟨s.hostReset, s.transact_reset, rfl, rfl, rfl, rfl⟩, State.transact_readImem hr, fun a => State.transact_readDmem hr,
    State.transact_readReg hr, fun n c wide writable reset hmem => ?_⟩
  · rw [s.transact_runState htr fun _ => by simp [hf], hf]
  · obtain ⟨-, -, -, hidx⟩ := csrTable_spec n c wide writable reset hmem
    exact s.transact_readCsr hr hidx

/-- Settles O24: in range each transaction is the one write or read; out of range, and in `RUN`, it is refused. -/
theorem hostReachesBothMemoriesWhenStopped : Obligations.HostReachesBothMemoriesWhenStopped := by
  refine ⟨fun s hr => ⟨fun i w => ⟨s.writeImem i w, State.transact_writeImem hr i w, ?_, fun j hj => ?_, rfl, fun _ => rfl,
      s.readCsr_writeImem i w, fun _ => rfl⟩, State.transact_readImem hr,
    fun a v ha => ⟨s.memWrite a v, State.transact_writeDmem hr ha v, ?_, s.memWrite_sameDmemOutside a v, rfl, s.readReg_memWrite a v,
      s.readCsr_memWrite a v, fun _ => rfl⟩, fun a => State.transact_readDmem hr,
    fun i w hi => State.transact_imem_refused hr hi w, fun a v ha => State.transact_dmem_refused hr ha v⟩, fun s i a w v hr => ?_⟩
  · rw [State.readImem_writeImem, if_pos rfl]
  · rw [State.readImem_writeImem, if_neg hj]
  · rw [State.memRead_memWrite, if_pos rfl]
  · exact ⟨State.transact_refused_of_run hr nofun nofun, State.transact_refused_of_run hr nofun nofun,
      State.transact_refused_of_run hr nofun nofun, State.transact_refused_of_run hr nofun nofun⟩

/-- Settles O26: the number finds the register of its row, and a write asks for a writable register that the value fits. -/
theorem hostReachesControlRegistersWhenStopped : Obligations.HostReachesControlRegistersWhenStopped := by
  refine ⟨State.transact_readCsr_status, fun s n v hr => ⟨State.transact_refused_of_run hr nofun nofun, fun hn =>
    State.transact_refused_of_run hr nofun (by simpa using hn)⟩, fun s hr => ⟨fun n c wide writable reset hmem => ?_, fun n v hn => ?_⟩⟩
  · obtain ⟨-, rfl, rfl, hidx⟩ := csrTable_spec n c wide writable reset hmem
    refine ⟨s.transact_readCsr hr hidx, fun v hw hv => ?_, fun v hv => ?_⟩
    · have hfits : csrFits c v = true := (csrFits_iff c v).mpr hv
      exact ⟨s.writeCsr c v, (s.transact_writeCsr hr hidx v hfits).trans (if_pos hw), s.readCsr_writeCsr_self c v hw hfits,
        s.writeCsr_sameCsrsBut c v, by simp, s.readReg_writeCsr c v, s.readImem_congr _ (by simp), s.memRead_of_dmem_eq _ (by simp)⟩
    · rcases hv with hw | ⟨hnarrow, hlarge⟩
      · exact s.transact_writeCsr_refused (fun c' hc' => Option.some.inj (hidx.symm.trans hc') ▸ hw) v
      · exact State.transact_writeCsr_too_large hr hidx (not_csrFits_of_gt hnarrow hlarge)
  · have hidx : csrOfIndex n = none := csrOfIndex_of_ge hn
    exact ⟨s.transact_readCsr_refused (by omega) hidx, s.transact_writeCsr_refused (fun c hc => by simp [hidx] at hc) v⟩

/-- Settles O27: no effect but that of reset touches the fault registers, and none but those of reset and `HostStart` `pc` or the run state. -/
theorem hostCannotWritePcOrFaultRegisters : Obligations.HostCannotWritePcOrFaultRegisters := by
  intro s tr hr
  obtain ⟨hcause, hepc, hfinfo⟩ := s.transact_fault_registers hr
  exact ⟨hcause, hepc, hfinfo, fun hs => ⟨s.transact_pc tr hr hs, s.transact_runState hr fun htr => absurd htr hs⟩⟩

/-- Settles O7: `STATUS` reads 1 in `RUN`. -/
theorem engineDoesNothingOutsideRun : Obligations.EngineDoesNothingOutsideRun :=
  fun s hs => step_of_ne_run s fun hr => hs (by simp [State.readCsr, RunState.status, hr])

/-- Settles O20: the guard of `RUN` lets reset and the read of number 0 through. -/
theorem hostAccessIsRefusedDuringRun : Obligations.HostAccessIsRefusedDuringRun := by
  intro s hr
  have hstatus : s.readCsr .status = 1 := by simp [State.readCsr, RunState.status, hr]
  refine ⟨fun tr => State.transact_refused_of_run hr, ?_, ?_, ?_⟩
  · rw [s.transact_readCsr_status, hstatus]
  · rw [s.transact_reset]
  · rw [s.transact_reset]
    rfl

/-- Settles O21: the effect of an accepted start is `State.hostStart`. -/
theorem hostStartBeginsARunAtEntry : Obligations.HostStartBeginsARunAtEntry := fun s =>
  ⟨fun hs => ⟨s.hostStart, s.transact_start hs, rfl, rfl, fun _ => rfl, s.hostStart_sameCsrsBut, fun _ => rfl, fun _ => rfl⟩,
    State.transact_start_refused⟩

/-- Settles O25: in range each transaction is the one write or read; out of range, and in `RUN`, it is refused. -/
theorem hostReachesGeneralRegistersWhenStopped : Obligations.HostReachesGeneralRegistersWhenStopped := by
  refine ⟨fun s hr => ⟨State.transact_readReg hr, fun r v => ⟨s.writeReg r v, State.transact_writeReg hr r v, ?_,
    s.writeReg_sameRegsBut r v, rfl, s.readCsr_writeReg r v, fun _ => rfl, fun _ => rfl⟩⟩, fun s i v hs => ?_⟩
  · rw [State.readReg_writeReg, if_pos rfl]
  · by_cases hr : s.runState = .run
    · exact ⟨State.transact_refused_of_run hr nofun nofun, State.transact_refused_of_run hr nofun nofun⟩
    · exact State.transact_reg_refused hr (hs.resolve_left hr) v

/-- Settles O23: `State.hostReset` is the state after power-on with the old instruction memory. -/
theorem hostResetLeavesTheResetState : Obligations.HostResetLeavesTheResetState := by
  refine ⟨fun s => ⟨s.hostReset, s.transact_reset, s.readReg_hostReset, rfl, fun n c wide writable reset hmem => ?_, fun _ => rfl,
    fun _ => rfl, rfl, step_of_ne_run _ nofun, rfl⟩, fun s hf => ⟨step_of_ne_run s (by simp [hf]), fun tr => s.transact_fault_registers⟩,
    State.readReg_reset, rfl, fun n c wide writable reset => readCsr_reset_of_mem_csrTable, fun _ => rfl⟩
  rw [s.readCsr_hostReset, readCsr_reset_of_mem_csrTable hmem]

end Sys2Proof.Machine
end

section
/-! PROOFS. The timing law (70_reset_and_hazards.md R305, R306): the fault among the public quantities is the one the instruction raises. -/

namespace Sys2Proof.Machine

/-! ## The latency -/

theorem State.latency_of_decode {s : State} {i : Instr} (h : decode s.fetch = .ok i) :
    s.latency = Config.latency (s.publicQuantities i) := by
  simp only [State.latency, h]

theorem State.latency_of_decode_error {s : State} {e : IllegalWord} (h : decode s.fetch = .error e) :
    s.latency = Config.latency { illegal := true } := by
  simp only [State.latency, h]

theorem State.latency_congr {s s' : State} {i i' : Instr} (h : decode s.fetch = .ok i) (h' : decode s'.fetch = .ok i')
    (hq : s.publicQuantities i = s'.publicQuantities i') : s.latency = s'.latency := by
  rw [State.latency_of_decode h, State.latency_of_decode h', hq]

/-- For an instruction whose row names nothing more, the opcode is all (70_reset_and_hazards.md R306). -/
theorem State.publicQuantities_of_opcode (s : State) {i : Instr} (h : opcodeOf i ∉ [0x12, 0x20, 0x21, 0x22, 0x32, 0x33, 0x51]) :
    s.publicQuantities i = { opcode := opcodeOf i } := by
  cases i
  case gfinv | peval | linterp | combine | meq | mzero | loop => simp [opcodeOf, encode] at h
  all_goals rfl

/-! ## The fault among the public quantities -/

/-- The code of the fault a state tells of, if it is one of `FAULTED`. -/
def State.faultCode (s : State) : Option (BitVec 8) := if s.runState = .faulted then some s.cause else none

@[simp] theorem State.faultCode_raise (s : State) (c : Cause) (info : Half) : (s.raise c info).faultCode = some c.code := rfl

theorem State.faultCode_of_run {s : State} (h : s.runState = .run) : s.faultCode = none := if_neg (by simp [h])

theorem SameFault.faultCode_eq {i i' : Instr} {s s' t t' : State} (h : SameFault i s i' s') (ht : exec i s = .next t)
    (ht' : exec i' s' = .next t') : t.faultCode = t'.faultCode := by
  obtain ⟨hiff, hcause⟩ := h t t' ht ht'
  by_cases hf : t.runState = .faulted
  · simp [State.faultCode, hf, hiff.mp hf, hcause hf]
  · simp [State.faultCode, hf, mt hiff.mpr hf]

/-- The instructions whose time may depend on a fault that the counts of their row do not decide (70_reset_and_hazards.md R306). -/
inductive TimedByFault : Instr → Prop where
  | gfinv (rd ra : RegNum) : TimedByFault (.gfinv rd ra)
  | linterp (rd ra : RegNum) : TimedByFault (.linterp rd ra)
  | combine : TimedByFault .combine

/-- The public fault of an instruction is the fault its execution ends in. -/
theorem TimedByFault.fault_eq {i : Instr} (hi : TimedByFault i) {s t : State} (hr : s.runState = .run) (h : exec i s = .next t) :
    (s.publicQuantities i).fault = t.faultCode := by
  cases hi
  case gfinv rd ra =>
    simp only [exec, execGfinv] at h
    split at h <;> rename_i hzero <;> cases h
    · exact if_pos hzero
    · exact (if_neg hzero).trans (State.faultCode_of_run hr).symm
  case linterp rd ra =>
    simp only [exec, execLinterp] at h
    split at h <;> rename_i hcheck <;> cases h
    · simp [State.publicQuantities, hcheck]
    · simp [State.publicQuantities, hcheck, State.faultCode_of_run, hr]
  case combine =>
    simp only [exec, execCombine] at h
    split at h <;> rename_i hcheck <;> cases h
    · simp [State.publicQuantities, hcheck]
    · simp [State.publicQuantities, hcheck, State.faultCode_of_run, hr]

/-- Instructions that agree on their fault have the same public fault. -/
theorem SameFault.publicQuantities_fault {i i' : Instr} {s s' : State} (h : SameFault i s i' s') (hi : TimedByFault i)
    (hi' : TimedByFault i') (hr : s.runState = .run) (hr' : s'.runState = .run) :
    (s.publicQuantities i).fault = (s'.publicQuantities i').fault := by
  obtain ⟨t, ht⟩ := exec_next i s
  obtain ⟨t', ht'⟩ := exec_next i' s'
  rw [hi.fault_eq hr ht, hi'.fault_eq hr' ht', h.faultCode_eq ht ht']

/-! ## The statement -/

/-- Settles O19: what the row of R306 names is equal, the fault by `SameFault.publicQuantities_fault`, and so are all public quantities. -/
theorem timeDependsOnlyOnThePublicQuantities : Obligations.TimeDependsOnlyOnThePublicQuantities := by
  refine ⟨fun s s' e e' he he' => (State.latency_of_decode_error he).trans (State.latency_of_decode_error he').symm,
    fun s s' i i' hr hr' hd hd' => ⟨fun hop hnot => State.latency_congr hd hd' ?_, ?_, ?_, ?_, ?_, ?_, ?_, ?_⟩⟩
  · rw [s.publicQuantities_of_opcode hnot, s'.publicQuantities_of_opcode (hop ▸ hnot), hop]
  · rintro rd ra rd' ra' rfl rfl hsame
    have hfault := hsame.publicQuantities_fault (.gfinv rd ra) (.gfinv rd' ra') hr hr'
    simp only [State.publicQuantities] at hfault
    exact State.latency_congr hd hd' (by simp only [State.publicQuantities, opcodeOf, encode, fieldOp_formatR, hfault])
  · rintro target target' rfl rfl hlc
    have hzero : (s.lc == 0) = (s'.lc == 0) := Bool.eq_iff_iff.mpr (by simpa using hlc)
    exact State.latency_congr hd hd' (by simp only [State.publicQuantities, opcodeOf, encode, fieldOp_formatI, hzero])
  · rintro rd ra rd' ra' rfl rfl hncoef -
    exact State.latency_congr hd hd' (by simp only [State.publicQuantities, opcodeOf, encode, fieldOp_formatR, hncoef])
  · rintro rd ra rd' ra' rfl rfl hnsh hsame
    have hfault := hsame.publicQuantities_fault (.linterp rd ra) (.linterp rd' ra') hr hr'
    simp only [State.publicQuantities] at hfault
    exact State.latency_congr hd hd' (by simp only [State.publicQuantities, opcodeOf, encode, fieldOp_formatR, hnsh, hfault])
  · rintro rfl rfl hmlen hnsh hsame
    have hfault := hsame.publicQuantities_fault .combine .combine hr hr'
    simp only [State.publicQuantities] at hfault
    exact State.latency_congr hd hd' (by simp only [State.publicQuantities, opcodeOf, encode, fieldOp_formatR, hmlen, hnsh, hfault])
  · rintro rd ra rd' ra' rfl rfl hlen
    exact State.latency_congr hd hd' (by simp only [State.publicQuantities, opcodeOf, encode, fieldOp_formatR, hlen])
  · rintro ra ra' rfl rfl hlen
    exact State.latency_congr hd hd' (by simp only [State.publicQuantities, opcodeOf, encode, fieldOp_formatR, hlen])

end Sys2Proof.Machine
end
